-- ==== Sys2Proof/Word.lean ====
section
/-! DEFINITION. The bit vectors of the machine (spec/00_scope.md R7, R10, R11): 64-bit register and address words, bytes,
32-bit instruction words, 5-bit register numbers and 12-bit CSR indices. Their arithmetic is `BitVec`'s own, modulo 2^width. -/

namespace Sys2Proof

/-- A 64-bit value, the `u64` of R11: register contents, addresses, CSR entries. -/
abbrev Word := BitVec 64

/-- One byte of the Memory (R50). -/
abbrev Byte := BitVec 8

/-- A fetched 32-bit instruction word, `inst` (R80). -/
abbrev InstWord := BitVec 32

/-- A 5-bit register number (R20). -/
abbrev RegIdx := BitVec 5

/-- A 12-bit CSR index (R27). -/
abbrev CsrIdx := BitVec 12

end Sys2Proof
end

