-- ==== Sys2Proof/Syntax.lean ====
section
/-! DEFINITION. The 45 instructions of spec/30_encoding.md R92, one constructor per row of spec/opcode_table.json, in the
table's order. Operands stand at the width the encoding gives them (R81 to R85): the branch offset is the 13-bit value of
R84, whose bit 0 `WellFormed` requires to be 0 (log 13). -/

namespace Sys2Proof

/-- A decoded instruction (R92). -/
inductive Instr where
  -- Branch (spec/41_branch.md)
  /-- R132 -/
  | beq (rs1 rs2 : RegIdx) (imm : BitVec 13)
  /-- R133 -/
  | bne (rs1 rs2 : RegIdx) (imm : BitVec 13)
  /-- R134 -/
  | blt (rs1 rs2 : RegIdx) (imm : BitVec 13)
  /-- R135 -/
  | bge (rs1 rs2 : RegIdx) (imm : BitVec 13)
  /-- R136 -/
  | bltu (rs1 rs2 : RegIdx) (imm : BitVec 13)
  /-- R137 -/
  | bgeu (rs1 rs2 : RegIdx) (imm : BitVec 13)
  -- Load (spec/42_load.md)
  /-- R143 -/
  | lb (rd rs1 : RegIdx) (imm : BitVec 12)
  /-- R144 -/
  | lh (rd rs1 : RegIdx) (imm : BitVec 12)
  /-- R145 -/
  | lw (rd rs1 : RegIdx) (imm : BitVec 12)
  /-- R146 -/
  | ld (rd rs1 : RegIdx) (imm : BitVec 12)
  /-- R147 -/
  | lbu (rd rs1 : RegIdx) (imm : BitVec 12)
  /-- R148 -/
  | lhu (rd rs1 : RegIdx) (imm : BitVec 12)
  /-- R149 -/
  | lwu (rd rs1 : RegIdx) (imm : BitVec 12)
  -- Store (spec/43_store.md)
  /-- R153 -/
  | sb (rs1 rs2 : RegIdx) (imm : BitVec 12)
  /-- R154 -/
  | sh (rs1 rs2 : RegIdx) (imm : BitVec 12)
  /-- R155 -/
  | sw (rs1 rs2 : RegIdx) (imm : BitVec 12)
  /-- R156 -/
  | sd (rs1 rs2 : RegIdx) (imm : BitVec 12)
  -- R-type 64-bit (spec/44_op.md)
  /-- R162 -/
  | add (rd rs1 rs2 : RegIdx)
  /-- R163 -/
  | sub (rd rs1 rs2 : RegIdx)
  /-- R164 -/
  | sll (rd rs1 rs2 : RegIdx)
  /-- R165 -/
  | slt (rd rs1 rs2 : RegIdx)
  /-- R166 -/
  | sltu (rd rs1 rs2 : RegIdx)
  /-- R167 -/
  | xor (rd rs1 rs2 : RegIdx)
  /-- R168 -/
  | srl (rd rs1 rs2 : RegIdx)
  /-- R169 -/
  | sra (rd rs1 rs2 : RegIdx)
  /-- R170 -/
  | or (rd rs1 rs2 : RegIdx)
  /-- R171 -/
  | and (rd rs1 rs2 : RegIdx)
  -- R-type word (spec/45_op32.md)
  /-- R182 -/
  | addw (rd rs1 rs2 : RegIdx)
  /-- R183 -/
  | subw (rd rs1 rs2 : RegIdx)
  /-- R184 -/
  | sllw (rd rs1 rs2 : RegIdx)
  /-- R185 -/
  | srlw (rd rs1 rs2 : RegIdx)
  /-- R186 -/
  | sraw (rd rs1 rs2 : RegIdx)
  -- I-type 64-bit (spec/46_opimm.md)
  /-- R192 -/
  | addi (rd rs1 : RegIdx) (imm : BitVec 12)
  /-- R193 -/
  | slti (rd rs1 : RegIdx) (imm : BitVec 12)
  /-- R194 -/
  | sltiu (rd rs1 : RegIdx) (imm : BitVec 12)
  /-- R195 -/
  | xori (rd rs1 : RegIdx) (imm : BitVec 12)
  /-- R196 -/
  | ori (rd rs1 : RegIdx) (imm : BitVec 12)
  /-- R197 -/
  | andi (rd rs1 : RegIdx) (imm : BitVec 12)
  /-- R198 -/
  | slli (rd rs1 : RegIdx) (shamt : BitVec 6)
  /-- R199 -/
  | srli (rd rs1 : RegIdx) (shamt : BitVec 6)
  /-- R200 -/
  | srai (rd rs1 : RegIdx) (shamt : BitVec 6)
  -- I-type word (spec/47_opimm32.md)
  /-- R212 -/
  | addiw (rd rs1 : RegIdx) (imm : BitVec 12)
  /-- R213 -/
  | slliw (rd rs1 : RegIdx) (shamt : BitVec 5)
  /-- R214 -/
  | srliw (rd rs1 : RegIdx) (shamt : BitVec 5)
  /-- R215 -/
  | sraiw (rd rs1 : RegIdx) (shamt : BitVec 5)
deriving DecidableEq, Repr

end Sys2Proof
end

