-- ==== Sys2Proof/WellFormed.lean ====
section
/-! DEFINITION. Which `Instr` terms stand for an instruction word. Every operand but the branch offset takes any value of its
type. A branch offset is even: `imm[0] = 0` (spec/30_encoding.md R84). -/

namespace Sys2Proof

/-- The offset of R84 is an even number. -/
def evenOffset (imm : BitVec 13) : Bool := imm.extractLsb' 0 1 == 0#1

/-- The check of an instruction term: the B-immediate is even (R84), nothing else is constrained. -/
def Instr.wellFormed (i : Instr) : Bool :=
  match i with
  | .beq _ _ imm => evenOffset imm
  | .bne _ _ imm => evenOffset imm
  | .blt _ _ imm => evenOffset imm
  | .bge _ _ imm => evenOffset imm
  | .bltu _ _ imm => evenOffset imm
  | .bgeu _ _ imm => evenOffset imm
  | .lb _ _ _ => true
  | .lh _ _ _ => true
  | .lw _ _ _ => true
  | .ld _ _ _ => true
  | .lbu _ _ _ => true
  | .lhu _ _ _ => true
  | .lwu _ _ _ => true
  | .sb _ _ _ => true
  | .sh _ _ _ => true
  | .sw _ _ _ => true
  | .sd _ _ _ => true
  | .add _ _ _ => true
  | .sub _ _ _ => true
  | .sll _ _ _ => true
  | .slt _ _ _ => true
  | .sltu _ _ _ => true
  | .xor _ _ _ => true
  | .srl _ _ _ => true
  | .sra _ _ _ => true
  | .or _ _ _ => true
  | .and _ _ _ => true
  | .addw _ _ _ => true
  | .subw _ _ _ => true
  | .sllw _ _ _ => true
  | .srlw _ _ _ => true
  | .sraw _ _ _ => true
  | .addi _ _ _ => true
  | .slti _ _ _ => true
  | .sltiu _ _ _ => true
  | .xori _ _ _ => true
  | .ori _ _ _ => true
  | .andi _ _ _ => true
  | .slli _ _ _ => true
  | .srli _ _ _ => true
  | .srai _ _ _ => true
  | .addiw _ _ _ => true
  | .slliw _ _ _ => true
  | .srliw _ _ _ => true
  | .sraiw _ _ _ => true

end Sys2Proof
end

