-- ==== Sys2Proof/Decode.lean ====
section
/-! DEFINITION. Decoding and encoding, from spec/30_encoding.md R80 to R100. Decode is a total function of the 32-bit word
alone (R87): a first dispatch on the opcode (R88), a second on funct3 and funct7 or funct6 (R89 to R97). A word it does not
map is rejected by name; R96 makes each rejection the same IllegalInstruction exception. The encoder after it writes the
formats of R81. `opcodeRow` is the mask and match of spec/opcode_table.json. -/

namespace Sys2Proof

/-! ### The fields of a word (R80, R82 to R85) -/

/-- `opcode = bits[6:0]` (R80). -/
def fieldOpcode (w : InstWord) : BitVec 7 := w.extractLsb' 0 7

/-- `rd = bits[11:7]` (R80). -/
def fieldRd (w : InstWord) : RegIdx := w.extractLsb' 7 5

/-- `funct3 = bits[14:12]` (R80). -/
def fieldFunct3 (w : InstWord) : BitVec 3 := w.extractLsb' 12 3

/-- `rs1 = bits[19:15]` (R80). -/
def fieldRs1 (w : InstWord) : RegIdx := w.extractLsb' 15 5

/-- `rs2 = bits[24:20]` (R80). -/
def fieldRs2 (w : InstWord) : RegIdx := w.extractLsb' 20 5

/-- `funct7 = bits[31:25]` (R80). -/
def fieldFunct7 (w : InstWord) : BitVec 7 := w.extractLsb' 25 7

/-- `funct6 = inst[31:26]`, checked by the 64-bit immediate shifts (R95). -/
def fieldFunct6 (w : InstWord) : BitVec 6 := w.extractLsb' 26 6

/-- The 12 bits `inst[31:20]` of the I-immediate, before their sign extension (R82). -/
def fieldImmI (w : InstWord) : BitVec 12 := w.extractLsb' 20 12

/-- The 12 bits `inst[31:25], inst[11:7]` of the S-immediate, before their sign extension (R83). -/
def fieldImmS (w : InstWord) : BitVec 12 := w.extractLsb' 25 7 ++ w.extractLsb' 7 5

/-- The 13 bits `inst[31], inst[7], inst[30:25], inst[11:8], 0` of the B-immediate, before their sign extension (R84). -/
def fieldImmB (w : InstWord) : BitVec 13 :=
  w.extractLsb' 31 1 ++ w.extractLsb' 7 1 ++ w.extractLsb' 25 6 ++ w.extractLsb' 8 4 ++ 0#1

/-- `shamt = inst[25:20]` of the 64-bit immediate shifts (R85). -/
def fieldShamt6 (w : InstWord) : BitVec 6 := w.extractLsb' 20 6

/-- `shamt = inst[24:20]` of the word immediate shifts (R85). -/
def fieldShamt5 (w : InstWord) : BitVec 5 := w.extractLsb' 20 5

/-! ### The opcodes (R88) -/

/-- Branch class, 0x63. -/
def opBranch : BitVec 7 := 0b1100011#7

/-- Load class, 0x03. -/
def opLoad : BitVec 7 := 0b0000011#7

/-- Store class, 0x23. -/
def opStore : BitVec 7 := 0b0100011#7

/-- R-type 64-bit class, 0x33. -/
def opReg : BitVec 7 := 0b0110011#7

/-- R-type word class, 0x3B. -/
def opReg32 : BitVec 7 := 0b0111011#7

/-- I-type 64-bit class, 0x13. -/
def opImm : BitVec 7 := 0b0010011#7

/-- I-type word class, 0x1B. -/
def opImm32 : BitVec 7 := 0b0011011#7

/-! ### Decoding -/

/-- Why a word is not an instruction, or why there is no word. Each of the first three is R96's IllegalInstruction. The last
cannot arise in a step, which always decodes four fetched bytes. -/
inductive DecodeReject where
  /-- The opcode is none of the seven of R88. -/
  | unknownOpcode
  /-- The class has no instruction with this funct3 (R89, R90, R91, R97). -/
  | unknownFunct3
  /-- The class has no instruction with this funct3 and funct7 or funct6 (R93, R94, R95, R97). -/
  | unknownFunct7
  /-- Fewer than four bytes were given (R100: every instruction has four). -/
  | truncated
deriving DecidableEq, Repr

/-- Second dispatch of the Branch class (R89). -/
def decodeBranch (w : InstWord) : Except DecodeReject Instr :=
  if fieldFunct3 w = 0b000#3 then .ok (.beq (fieldRs1 w) (fieldRs2 w) (fieldImmB w))
  else if fieldFunct3 w = 0b001#3 then .ok (.bne (fieldRs1 w) (fieldRs2 w) (fieldImmB w))
  else if fieldFunct3 w = 0b100#3 then .ok (.blt (fieldRs1 w) (fieldRs2 w) (fieldImmB w))
  else if fieldFunct3 w = 0b101#3 then .ok (.bge (fieldRs1 w) (fieldRs2 w) (fieldImmB w))
  else if fieldFunct3 w = 0b110#3 then .ok (.bltu (fieldRs1 w) (fieldRs2 w) (fieldImmB w))
  else if fieldFunct3 w = 0b111#3 then .ok (.bgeu (fieldRs1 w) (fieldRs2 w) (fieldImmB w))
  else .error .unknownFunct3

/-- Second dispatch of the Load class (R90). -/
def decodeLoad (w : InstWord) : Except DecodeReject Instr :=
  if fieldFunct3 w = 0b000#3 then .ok (.lb (fieldRd w) (fieldRs1 w) (fieldImmI w))
  else if fieldFunct3 w = 0b001#3 then .ok (.lh (fieldRd w) (fieldRs1 w) (fieldImmI w))
  else if fieldFunct3 w = 0b010#3 then .ok (.lw (fieldRd w) (fieldRs1 w) (fieldImmI w))
  else if fieldFunct3 w = 0b011#3 then .ok (.ld (fieldRd w) (fieldRs1 w) (fieldImmI w))
  else if fieldFunct3 w = 0b100#3 then .ok (.lbu (fieldRd w) (fieldRs1 w) (fieldImmI w))
  else if fieldFunct3 w = 0b101#3 then .ok (.lhu (fieldRd w) (fieldRs1 w) (fieldImmI w))
  else if fieldFunct3 w = 0b110#3 then .ok (.lwu (fieldRd w) (fieldRs1 w) (fieldImmI w))
  else .error .unknownFunct3

/-- Second dispatch of the Store class (R91). -/
def decodeStore (w : InstWord) : Except DecodeReject Instr :=
  if fieldFunct3 w = 0b000#3 then .ok (.sb (fieldRs1 w) (fieldRs2 w) (fieldImmS w))
  else if fieldFunct3 w = 0b001#3 then .ok (.sh (fieldRs1 w) (fieldRs2 w) (fieldImmS w))
  else if fieldFunct3 w = 0b010#3 then .ok (.sw (fieldRs1 w) (fieldRs2 w) (fieldImmS w))
  else if fieldFunct3 w = 0b011#3 then .ok (.sd (fieldRs1 w) (fieldRs2 w) (fieldImmS w))
  else .error .unknownFunct3

/-- Second dispatch of the R-type 64-bit class: funct3 and funct7 compared exactly (R93). -/
def decodeReg (w : InstWord) : Except DecodeReject Instr :=
  if fieldFunct3 w = 0b000#3 ∧ fieldFunct7 w = 0b0000000#7 then .ok (.add (fieldRd w) (fieldRs1 w) (fieldRs2 w))
  else if fieldFunct3 w = 0b000#3 ∧ fieldFunct7 w = 0b0100000#7 then .ok (.sub (fieldRd w) (fieldRs1 w) (fieldRs2 w))
  else if fieldFunct3 w = 0b001#3 ∧ fieldFunct7 w = 0b0000000#7 then .ok (.sll (fieldRd w) (fieldRs1 w) (fieldRs2 w))
  else if fieldFunct3 w = 0b010#3 ∧ fieldFunct7 w = 0b0000000#7 then .ok (.slt (fieldRd w) (fieldRs1 w) (fieldRs2 w))
  else if fieldFunct3 w = 0b011#3 ∧ fieldFunct7 w = 0b0000000#7 then .ok (.sltu (fieldRd w) (fieldRs1 w) (fieldRs2 w))
  else if fieldFunct3 w = 0b100#3 ∧ fieldFunct7 w = 0b0000000#7 then .ok (.xor (fieldRd w) (fieldRs1 w) (fieldRs2 w))
  else if fieldFunct3 w = 0b101#3 ∧ fieldFunct7 w = 0b0000000#7 then .ok (.srl (fieldRd w) (fieldRs1 w) (fieldRs2 w))
  else if fieldFunct3 w = 0b101#3 ∧ fieldFunct7 w = 0b0100000#7 then .ok (.sra (fieldRd w) (fieldRs1 w) (fieldRs2 w))
  else if fieldFunct3 w = 0b110#3 ∧ fieldFunct7 w = 0b0000000#7 then .ok (.or (fieldRd w) (fieldRs1 w) (fieldRs2 w))
  else if fieldFunct3 w = 0b111#3 ∧ fieldFunct7 w = 0b0000000#7 then .ok (.and (fieldRd w) (fieldRs1 w) (fieldRs2 w))
  else .error .unknownFunct7

/-- Second dispatch of the R-type word class: funct3 and funct7 compared exactly (R94). -/
def decodeReg32 (w : InstWord) : Except DecodeReject Instr :=
  if fieldFunct3 w = 0b000#3 ∧ fieldFunct7 w = 0b0000000#7 then .ok (.addw (fieldRd w) (fieldRs1 w) (fieldRs2 w))
  else if fieldFunct3 w = 0b000#3 ∧ fieldFunct7 w = 0b0100000#7 then .ok (.subw (fieldRd w) (fieldRs1 w) (fieldRs2 w))
  else if fieldFunct3 w = 0b001#3 ∧ fieldFunct7 w = 0b0000000#7 then .ok (.sllw (fieldRd w) (fieldRs1 w) (fieldRs2 w))
  else if fieldFunct3 w = 0b101#3 ∧ fieldFunct7 w = 0b0000000#7 then .ok (.srlw (fieldRd w) (fieldRs1 w) (fieldRs2 w))
  else if fieldFunct3 w = 0b101#3 ∧ fieldFunct7 w = 0b0100000#7 then .ok (.sraw (fieldRd w) (fieldRs1 w) (fieldRs2 w))
  else .error .unknownFunct7

/-- Second dispatch of the I-type 64-bit class: the shifts compare `inst[31:26]` exactly, and `inst[25]` is shamt[5] (R95). -/
def decodeImm (w : InstWord) : Except DecodeReject Instr :=
  if fieldFunct3 w = 0b000#3 then .ok (.addi (fieldRd w) (fieldRs1 w) (fieldImmI w))
  else if fieldFunct3 w = 0b010#3 then .ok (.slti (fieldRd w) (fieldRs1 w) (fieldImmI w))
  else if fieldFunct3 w = 0b011#3 then .ok (.sltiu (fieldRd w) (fieldRs1 w) (fieldImmI w))
  else if fieldFunct3 w = 0b100#3 then .ok (.xori (fieldRd w) (fieldRs1 w) (fieldImmI w))
  else if fieldFunct3 w = 0b110#3 then .ok (.ori (fieldRd w) (fieldRs1 w) (fieldImmI w))
  else if fieldFunct3 w = 0b111#3 then .ok (.andi (fieldRd w) (fieldRs1 w) (fieldImmI w))
  else if fieldFunct3 w = 0b001#3 ∧ fieldFunct6 w = 0b000000#6 then .ok (.slli (fieldRd w) (fieldRs1 w) (fieldShamt6 w))
  else if fieldFunct3 w = 0b101#3 ∧ fieldFunct6 w = 0b000000#6 then .ok (.srli (fieldRd w) (fieldRs1 w) (fieldShamt6 w))
  else if fieldFunct3 w = 0b101#3 ∧ fieldFunct6 w = 0b010000#6 then .ok (.srai (fieldRd w) (fieldRs1 w) (fieldShamt6 w))
  else .error .unknownFunct7

/-- Second dispatch of the I-type word class: the shifts compare funct7 exactly, so `inst[25] = 0` (R97). -/
def decodeImm32 (w : InstWord) : Except DecodeReject Instr :=
  if fieldFunct3 w = 0b000#3 then .ok (.addiw (fieldRd w) (fieldRs1 w) (fieldImmI w))
  else if fieldFunct3 w = 0b001#3 ∧ fieldFunct7 w = 0b0000000#7 then .ok (.slliw (fieldRd w) (fieldRs1 w) (fieldShamt5 w))
  else if fieldFunct3 w = 0b101#3 ∧ fieldFunct7 w = 0b0000000#7 then .ok (.srliw (fieldRd w) (fieldRs1 w) (fieldShamt5 w))
  else if fieldFunct3 w = 0b101#3 ∧ fieldFunct7 w = 0b0100000#7 then .ok (.sraiw (fieldRd w) (fieldRs1 w) (fieldShamt5 w))
  else if fieldFunct3 w = 0b001#3 ∨ fieldFunct3 w = 0b101#3 then .error .unknownFunct7
  else .error .unknownFunct3

/-- First dispatch, on the opcode (R88). Total on every word (R87, R96). -/
def decodeWord (w : InstWord) : Except DecodeReject Instr :=
  if fieldOpcode w = opBranch then decodeBranch w
  else if fieldOpcode w = opLoad then decodeLoad w
  else if fieldOpcode w = opStore then decodeStore w
  else if fieldOpcode w = opReg then decodeReg w
  else if fieldOpcode w = opReg32 then decodeReg32 w
  else if fieldOpcode w = opImm then decodeImm w
  else if fieldOpcode w = opImm32 then decodeImm32 w
  else .error .unknownOpcode

/-- The word of four bytes, the first the least significant (R52, R110). -/
def leWord (b0 b1 b2 b3 : Byte) : InstWord := b3 ++ b2 ++ b1 ++ b0

/-- The four bytes of a word as the Memory holds them, lowest address first (R52). -/
def wordBytes (w : InstWord) : List Byte :=
  [w.extractLsb' 0 8, w.extractLsb' 8 8, w.extractLsb' 16 8, w.extractLsb' 24 8]

/-- Decode the instruction at the head of a byte sequence, with the bytes after it. Every instruction is four bytes (R100). -/
def decodeBytes (bs : List Byte) : Except DecodeReject (Instr × List Byte) :=
  match bs with
  | b0 :: b1 :: b2 :: b3 :: rest =>
    match decodeWord (leWord b0 b1 b2 b3) with
    | .ok i => .ok (i, rest)
    | .error r => .error r
  | _ => .error .truncated

/-! ### Encoding (R81) -/

/-- R-type: funct7, rs2, rs1, funct3, rd, opcode (R81). -/
def encodeR (funct7 : BitVec 7) (rs2 rs1 : RegIdx) (funct3 : BitVec 3) (rd : RegIdx) (opcode : BitVec 7) : InstWord :=
  funct7 ++ rs2 ++ rs1 ++ funct3 ++ rd ++ opcode

/-- I-type: imm[11:0], rs1, funct3, rd, opcode (R81). -/
def encodeI (imm : BitVec 12) (rs1 : RegIdx) (funct3 : BitVec 3) (rd : RegIdx) (opcode : BitVec 7) : InstWord :=
  imm ++ rs1 ++ funct3 ++ rd ++ opcode

/-- I-type shift, 64-bit: funct6, shamt[5:0], rs1, funct3, rd, opcode (R81). -/
def encodeShift6 (funct6 shamt : BitVec 6) (rs1 : RegIdx) (funct3 : BitVec 3) (rd : RegIdx) (opcode : BitVec 7) : InstWord :=
  funct6 ++ shamt ++ rs1 ++ funct3 ++ rd ++ opcode

/-- I-type shift, word: funct7, shamt[4:0], rs1, funct3, rd, opcode (R81). -/
def encodeShift5 (funct7 : BitVec 7) (shamt : BitVec 5) (rs1 : RegIdx) (funct3 : BitVec 3) (rd : RegIdx)
    (opcode : BitVec 7) : InstWord :=
  funct7 ++ shamt ++ rs1 ++ funct3 ++ rd ++ opcode

/-- S-type: imm[11:5], rs2, rs1, funct3, imm[4:0], opcode (R81). -/
def encodeS (imm : BitVec 12) (rs2 rs1 : RegIdx) (funct3 : BitVec 3) (opcode : BitVec 7) : InstWord :=
  imm.extractLsb' 5 7 ++ rs2 ++ rs1 ++ funct3 ++ imm.extractLsb' 0 5 ++ opcode

/-- B-type: imm[12], imm[10:5], rs2, rs1, funct3, imm[4:1], imm[11], opcode (R81). -/
def encodeB (imm : BitVec 13) (rs2 rs1 : RegIdx) (funct3 : BitVec 3) (opcode : BitVec 7) : InstWord :=
  imm.extractLsb' 12 1 ++ imm.extractLsb' 5 6 ++ rs2 ++ rs1 ++ funct3 ++ imm.extractLsb' 1 4 ++ imm.extractLsb' 11 1 ++ opcode

/-- The word of an instruction (R81, R88 to R97). An odd branch offset has no word: its bit 0 is dropped. -/
def encode (i : Instr) : InstWord :=
  match i with
  | .beq rs1 rs2 imm => encodeB imm rs2 rs1 0b000#3 opBranch
  | .bne rs1 rs2 imm => encodeB imm rs2 rs1 0b001#3 opBranch
  | .blt rs1 rs2 imm => encodeB imm rs2 rs1 0b100#3 opBranch
  | .bge rs1 rs2 imm => encodeB imm rs2 rs1 0b101#3 opBranch
  | .bltu rs1 rs2 imm => encodeB imm rs2 rs1 0b110#3 opBranch
  | .bgeu rs1 rs2 imm => encodeB imm rs2 rs1 0b111#3 opBranch
  | .lb rd rs1 imm => encodeI imm rs1 0b000#3 rd opLoad
  | .lh rd rs1 imm => encodeI imm rs1 0b001#3 rd opLoad
  | .lw rd rs1 imm => encodeI imm rs1 0b010#3 rd opLoad
  | .ld rd rs1 imm => encodeI imm rs1 0b011#3 rd opLoad
  | .lbu rd rs1 imm => encodeI imm rs1 0b100#3 rd opLoad
  | .lhu rd rs1 imm => encodeI imm rs1 0b101#3 rd opLoad
  | .lwu rd rs1 imm => encodeI imm rs1 0b110#3 rd opLoad
  | .sb rs1 rs2 imm => encodeS imm rs2 rs1 0b000#3 opStore
  | .sh rs1 rs2 imm => encodeS imm rs2 rs1 0b001#3 opStore
  | .sw rs1 rs2 imm => encodeS imm rs2 rs1 0b010#3 opStore
  | .sd rs1 rs2 imm => encodeS imm rs2 rs1 0b011#3 opStore
  | .add rd rs1 rs2 => encodeR 0b0000000#7 rs2 rs1 0b000#3 rd opReg
  | .sub rd rs1 rs2 => encodeR 0b0100000#7 rs2 rs1 0b000#3 rd opReg
  | .sll rd rs1 rs2 => encodeR 0b0000000#7 rs2 rs1 0b001#3 rd opReg
  | .slt rd rs1 rs2 => encodeR 0b0000000#7 rs2 rs1 0b010#3 rd opReg
  | .sltu rd rs1 rs2 => encodeR 0b0000000#7 rs2 rs1 0b011#3 rd opReg
  | .xor rd rs1 rs2 => encodeR 0b0000000#7 rs2 rs1 0b100#3 rd opReg
  | .srl rd rs1 rs2 => encodeR 0b0000000#7 rs2 rs1 0b101#3 rd opReg
  | .sra rd rs1 rs2 => encodeR 0b0100000#7 rs2 rs1 0b101#3 rd opReg
  | .or rd rs1 rs2 => encodeR 0b0000000#7 rs2 rs1 0b110#3 rd opReg
  | .and rd rs1 rs2 => encodeR 0b0000000#7 rs2 rs1 0b111#3 rd opReg
  | .addw rd rs1 rs2 => encodeR 0b0000000#7 rs2 rs1 0b000#3 rd opReg32
  | .subw rd rs1 rs2 => encodeR 0b0100000#7 rs2 rs1 0b000#3 rd opReg32
  | .sllw rd rs1 rs2 => encodeR 0b0000000#7 rs2 rs1 0b001#3 rd opReg32
  | .srlw rd rs1 rs2 => encodeR 0b0000000#7 rs2 rs1 0b101#3 rd opReg32
  | .sraw rd rs1 rs2 => encodeR 0b0100000#7 rs2 rs1 0b101#3 rd opReg32
  | .addi rd rs1 imm => encodeI imm rs1 0b000#3 rd opImm
  | .slti rd rs1 imm => encodeI imm rs1 0b010#3 rd opImm
  | .sltiu rd rs1 imm => encodeI imm rs1 0b011#3 rd opImm
  | .xori rd rs1 imm => encodeI imm rs1 0b100#3 rd opImm
  | .ori rd rs1 imm => encodeI imm rs1 0b110#3 rd opImm
  | .andi rd rs1 imm => encodeI imm rs1 0b111#3 rd opImm
  | .slli rd rs1 shamt => encodeShift6 0b000000#6 shamt rs1 0b001#3 rd opImm
  | .srli rd rs1 shamt => encodeShift6 0b000000#6 shamt rs1 0b101#3 rd opImm
  | .srai rd rs1 shamt => encodeShift6 0b010000#6 shamt rs1 0b101#3 rd opImm
  | .addiw rd rs1 imm => encodeI imm rs1 0b000#3 rd opImm32
  | .slliw rd rs1 shamt => encodeShift5 0b0000000#7 shamt rs1 0b001#3 rd opImm32
  | .srliw rd rs1 shamt => encodeShift5 0b0000000#7 shamt rs1 0b101#3 rd opImm32
  | .sraiw rd rs1 shamt => encodeShift5 0b0100000#7 shamt rs1 0b101#3 rd opImm32

/-- The mask and match of an instruction's row of spec/opcode_table.json. -/
def opcodeRow (i : Instr) : InstWord × InstWord :=
  match i with
  | .beq _ _ _ => (0x0000707F#32, 0x00000063#32)
  | .bne _ _ _ => (0x0000707F#32, 0x00001063#32)
  | .blt _ _ _ => (0x0000707F#32, 0x00004063#32)
  | .bge _ _ _ => (0x0000707F#32, 0x00005063#32)
  | .bltu _ _ _ => (0x0000707F#32, 0x00006063#32)
  | .bgeu _ _ _ => (0x0000707F#32, 0x00007063#32)
  | .lb _ _ _ => (0x0000707F#32, 0x00000003#32)
  | .lh _ _ _ => (0x0000707F#32, 0x00001003#32)
  | .lw _ _ _ => (0x0000707F#32, 0x00002003#32)
  | .ld _ _ _ => (0x0000707F#32, 0x00003003#32)
  | .lbu _ _ _ => (0x0000707F#32, 0x00004003#32)
  | .lhu _ _ _ => (0x0000707F#32, 0x00005003#32)
  | .lwu _ _ _ => (0x0000707F#32, 0x00006003#32)
  | .sb _ _ _ => (0x0000707F#32, 0x00000023#32)
  | .sh _ _ _ => (0x0000707F#32, 0x00001023#32)
  | .sw _ _ _ => (0x0000707F#32, 0x00002023#32)
  | .sd _ _ _ => (0x0000707F#32, 0x00003023#32)
  | .add _ _ _ => (0xFE00707F#32, 0x00000033#32)
  | .sub _ _ _ => (0xFE00707F#32, 0x40000033#32)
  | .sll _ _ _ => (0xFE00707F#32, 0x00001033#32)
  | .slt _ _ _ => (0xFE00707F#32, 0x00002033#32)
  | .sltu _ _ _ => (0xFE00707F#32, 0x00003033#32)
  | .xor _ _ _ => (0xFE00707F#32, 0x00004033#32)
  | .srl _ _ _ => (0xFE00707F#32, 0x00005033#32)
  | .sra _ _ _ => (0xFE00707F#32, 0x40005033#32)
  | .or _ _ _ => (0xFE00707F#32, 0x00006033#32)
  | .and _ _ _ => (0xFE00707F#32, 0x00007033#32)
  | .addw _ _ _ => (0xFE00707F#32, 0x0000003B#32)
  | .subw _ _ _ => (0xFE00707F#32, 0x4000003B#32)
  | .sllw _ _ _ => (0xFE00707F#32, 0x0000103B#32)
  | .srlw _ _ _ => (0xFE00707F#32, 0x0000503B#32)
  | .sraw _ _ _ => (0xFE00707F#32, 0x4000503B#32)
  | .addi _ _ _ => (0x0000707F#32, 0x00000013#32)
  | .slti _ _ _ => (0x0000707F#32, 0x00002013#32)
  | .sltiu _ _ _ => (0x0000707F#32, 0x00003013#32)
  | .xori _ _ _ => (0x0000707F#32, 0x00004013#32)
  | .ori _ _ _ => (0x0000707F#32, 0x00006013#32)
  | .andi _ _ _ => (0x0000707F#32, 0x00007013#32)
  | .slli _ _ _ => (0xFC00707F#32, 0x00001013#32)
  | .srli _ _ _ => (0xFC00707F#32, 0x00005013#32)
  | .srai _ _ _ => (0xFC00707F#32, 0x40005013#32)
  | .addiw _ _ _ => (0x0000707F#32, 0x0000001B#32)
  | .slliw _ _ _ => (0xFE00707F#32, 0x0000101B#32)
  | .srliw _ _ _ => (0xFE00707F#32, 0x0000501B#32)
  | .sraiw _ _ _ => (0xFE00707F#32, 0x4000501B#32)

/-! ### The host's numbering of an instruction's bits -/

/-- The word whose low `nbits` bits are those of `w` and whose other bits are 0. -/
def tableWord (nbits w : Nat) : InstWord := BitVec.ofNat 32 (w % 2 ^ nbits)

/-- What the decoder reads from an instruction numbered as spec/opcode_table.json numbers it: its four bytes, laid out as the
Memory holds them, given to `decodeBytes`. -/
def decodeTableWord (nbits w : Nat) : Option Instr :=
  match decodeBytes (wordBytes (tableWord nbits w)) with
  | .ok (i, _) => some i
  | .error _ => none

end Sys2Proof
end

