-- ==== Sys2Proof/Config.lean ====
section
/-! DEFINITION. The named parameters of the hardware (spec/00_scope.md R8) and its one free value.
`MEM_BASE`, `MEM_SIZE` and `SSTATUS_MASK` are fields of `Params`, which a state carries unchanged, so that a statement about
every state holds for every value of them (log 1). `INIT_X` is an argument of construction. `WORD_SHIFT_HI` is an opaque
constant (log 2). -/

namespace Sys2Proof

/-- The parameters of R8 that hold for the life of a block. -/
structure Params where
  /-- `MEM_BASE`, the first byte address of the window. -/
  memBase : Word
  /-- `MEM_SIZE`, the number of bytes of the window. -/
  memSize : Nat
  /-- `SSTATUS_MASK`, the bits of mstatus that sstatus shows. -/
  sstatusMask : Word
deriving DecidableEq, Repr

/-- The constraints R8 puts on the window: `MEM_BASE` a multiple of 4, `1 <= MEM_SIZE`, `MEM_BASE + MEM_SIZE <= 2^64`. -/
abbrev Params.valid (p : Params) : Prop :=
  p.memBase.toNat % 4 = 0 ∧ 1 ≤ p.memSize ∧ p.memBase.toNat + p.memSize ≤ 2 ^ 64

/-- The spec's reference values (R8, decisions D2, D3, D4). DESIGN CHOICE for `State.reset` (log 1). -/
def Params.reference : Params :=
  { memBase := 0x0000_0000_8000_0000#64, memSize := 0x0800_0000, sstatusMask := 0x8000_0003_000D_E162#64 }

/-- The reference value of `INIT_X`, x1 to x31 all zero (R8, R251, decision D14). DESIGN CHOICE for `State.reset` (log 3). -/
def initXReference : Vector Word 31 := Vector.replicate 31 0#64

/-- The operation argument of `WORD_SHIFT_HI` (R8). -/
inductive WordShiftOp where
  | sllw
  | srlw
  | sraw
deriving DecidableEq, Repr

/-- `WORD_SHIFT_HI(op, x[rs1], shamt)`: the 32-bit result of a register word shift whose 6-bit amount is 32 to 63
(R8, R187, decision D10). Its operand is the low 32 bits of x[rs1], because bits 63:32 do not affect any result (R181, decision
D31). A free value: the spec gives it no value, and nothing here does (log 2). -/
opaque Config.wordShiftHi : WordShiftOp → BitVec 32 → BitVec 6 → BitVec 32

end Sys2Proof
end

