-- ==== Sys2Proof/Machine/State.lean ====
section
/-! DEFINITION. The state of the block, as plain data: the tuple (x, pc, mem, csr, status) of spec/10_state.md, with the
parameters of spec/00_scope.md R8 that hold for its life. Sparse data (the Memory and the CSR bank) are lists of (key, value)
pairs in one canonical form: keys strictly rising, no entry equal to 0, which is what an unlisted key reads as (R253, R256). -/

namespace Sys2Proof.Machine

/-- An exception record: one tag per cause of R221, each with its 64-bit payload (R220). -/
inductive Exn where
  /-- Code 0. Raised by a taken branch to a target that is not a multiple of 4 (R131). -/
  | instructionAddressMisaligned (target : Word)
  /-- Code 1. Raised by the fetch of a byte out of the window (R110). -/
  | instructionAccessFault (addr : Word)
  /-- Code 2. Raised by a word that decode does not map (R96). The payload is the word, zero-extended. -/
  | illegalInstruction (inst : Word)
  /-- Code 3. Never raised (R223). -/
  | breakpoint (pc : Word)
  /-- Code 4. Never raised (R62, R223). -/
  | loadAddressMisaligned (addr : Word)
  /-- Code 5. Raised by a load whose span is out of the window (R142). -/
  | loadAccessFault (addr : Word)
  /-- Code 6. Never raised (R62, R223). -/
  | storeAMOAddressMisaligned (addr : Word)
  /-- Code 7. Raised by a store whose span is out of the window (R152). -/
  | storeAMOAccessFault (addr : Word)
  /-- Code 8. Never raised (R223). -/
  | environmentCallFromUMode (pc : Word)
  /-- Code 9. Never raised (R223). -/
  | environmentCallFromSMode (pc : Word)
  /-- Code 11. Never raised (R223). -/
  | environmentCallFromMMode (pc : Word)
  /-- Code 12. Never raised (R72, R223). -/
  | instructionPageFault (addr : Word)
  /-- Code 13. Never raised (R72, R223). -/
  | loadPageFault (addr : Word)
  /-- Code 15. Never raised (R72, R223). -/
  | storeAMOPageFault (addr : Word)
deriving DecidableEq, Repr

/-- Why a run ended (R40). -/
inductive HaltReason where
  /-- The fetched word was 0 (R111). -/
  | zeroWord (addr : Word)
  /-- A step raised the exception (R230). -/
  | trap (e : Exn)
deriving DecidableEq, Repr

/-- The run status (R40). -/
inductive Status where
  | running
  | halted (reason : HaltReason)
deriving DecidableEq, Repr

/-- A step that stops outside the machine's own behaviour. There is none: every exception of the spec is taken, as a halt of
the run, which is a next state (R230), and a halted block steps to itself (R115). So no constructor (log 5). Safe. -/
inductive Fault where
deriving DecidableEq, Repr

/-- An instruction that the model gives no meaning. -/
inductive Refusal where
  /-- Raised only by an arm of `exec` that has no meaning yet. No arm is left so (log 5). Safe. -/
  | notModelled (mnemonic : String)
deriving DecidableEq, Repr

/-- The Memory (R50), as (byte address, byte) pairs in canonical form (log 6). -/
abbrev Memory := List Host.Cell

/-- The CSR bank (R27), as (index, value) pairs in canonical form (log 8). -/
abbrev CsrBank := List (Nat × Word)

/-- The state of the block. -/
structure State where
  /-- x0 to x31 (R20). Read and written through `State.reg` and `State.setReg` only, which hard-wire x0 (R21, log 11). -/
  regs : Vector Word 32
  /-- The program counter (R23). -/
  pc : Word
  /-- The Memory (R50). -/
  mem : Memory
  /-- The CSR bank (R27). -/
  csr : CsrBank
  /-- The run status (R40). -/
  status : Status
  /-- The parameters of R8, which no operation changes (log 1). -/
  params : Params
deriving DecidableEq, Repr

/-- The block right after construction from the empty image with the reference parameters (R250 to R256): every register 0
(log 3), the pc at `MEM_BASE`, nothing listed in the Memory or the CSR bank, so every byte and entry reads 0, and Running. -/
def State.reset : State :=
  { regs := Vector.replicate 32 0#64
    pc := Params.reference.memBase
    mem := []
    csr := []
    status := .running
    params := Params.reference }

end Sys2Proof.Machine
end

