-- ==== Sys2Proof/Machine/Flags.lean ====
section
/-! DEFINITION. The hardware has no flags, condition codes or predicate registers (spec/10_state.md R25): nothing here writes
one. What other hardware takes from flags, this one takes from comparisons of two registers (spec/00_scope.md R11,
spec/30_encoding.md R89), which are whole here, with the numeric reading of their result. -/

namespace Sys2Proof.Machine

/-- `a == b` on all 64 bits (R132). -/
def cmpEq (a b : Word) : Bool := a == b

/-- `a <s b`, the two's-complement comparison (R11, R134). -/
def cmpLtS (a b : Word) : Bool := a.slt b

/-- `a <u b`, the unsigned comparison (R11, R136). -/
def cmpLtU (a b : Word) : Bool := a.ult b

/-- `bool2u64(b)`: 1 if b is true and 0 otherwise (R11). -/
def bool2u64 (b : Bool) : Word := if b then 1#64 else 0#64

end Sys2Proof.Machine
end

