-- ==== Sys2Proof/Machine/Operands.lean ====
section
/-! DEFINITION. Operand forms and value widths: the extensions of spec/00_scope.md R11, the immediates of
spec/30_encoding.md R82 to R84 as 64-bit values, the shift amounts of R85, and the access widths of spec/20_memory.md R61. -/

namespace Sys2Proof.Machine

/-- `imm = sext_12(...)` of the I- and S-immediates (R82, R83). -/
def sextImm12 (imm : BitVec 12) : Word := imm.signExtend 64

/-- `imm = sext_13(...)` of the B-immediate (R84). -/
def sextImm13 (imm : BitVec 13) : Word := imm.signExtend 64

/-- The low 32 bits of a register, the operand of the word forms (R181, R211, decision D31). -/
def low32 (v : Word) : BitVec 32 := v.extractLsb' 0 32

/-- `sext_32(r)`, the write-back of the word forms (R181, R211). -/
def sext32 (r : BitVec 32) : Word := r.signExtend 64

/-- `zext_32(r)` (R11), the payload of IllegalInstruction (R96). -/
def zext32 (r : BitVec 32) : Word := r.setWidth 64

/-- `shamt = x[rs2][5:0]` of the register shifts, 64-bit and word (R85, R187). -/
def regShamt (v : Word) : BitVec 6 := v.extractLsb' 0 6

/-- The four access widths of the Bus (R61). -/
inductive Width where
  | byte
  | half
  | word
  | double
deriving DecidableEq, Repr

/-- The number of bytes of a width, `n` in {1, 2, 4, 8} (R61). -/
def widthBytes (n : Width) : Nat :=
  match n with
  | .byte => 1
  | .half => 2
  | .word => 4
  | .double => 8

end Sys2Proof.Machine
end

