-- ==== Sys2Proof/Machine/Sparse.lean ====
section
/-! DEFINITION. Sparse tables: lists of (key, value) pairs, in the one canonical form of the Memory and the CSR bank. A key
that is not listed reads 0. -/

namespace Sys2Proof.Machine

/-- The value at key `k`: the first pair listed for it, else 0. -/
def sparseRead {w : Nat} (l : List (Nat × BitVec w)) (k : Nat) : BitVec w :=
  match l with
  | [] => 0#w
  | (j, v) :: rest => if j = k then v else sparseRead rest k

/-- Put a pair before a table, unless its value is the one an unlisted key reads. -/
def sparseCons {w : Nat} (k : Nat) (v : BitVec w) (rest : List (Nat × BitVec w)) : List (Nat × BitVec w) :=
  if v = 0#w then rest else (k, v) :: rest

/-- Set the value at key `k`, keeping the keys in rising order and no 0 listed. -/
def sparseWrite {w : Nat} (l : List (Nat × BitVec w)) (k : Nat) (v : BitVec w) : List (Nat × BitVec w) :=
  match l with
  | [] => sparseCons k v []
  | (j, u) :: rest =>
    if k < j then sparseCons k v ((j, u) :: rest)
    else if k = j then sparseCons k v rest
    else (j, u) :: sparseWrite rest k v

/-- Every key of the table is above `k`. -/
def keysAbove {w : Nat} (k : Nat) (l : List (Nat × BitVec w)) : Bool := l.all fun p => decide (k < p.1)

/-- The canonical form: keys strictly rising, no value 0. -/
def sparseWf {w : Nat} (l : List (Nat × BitVec w)) : Bool :=
  match l with
  | [] => true
  | (k, v) :: rest => v != 0#w && keysAbove k rest && sparseWf rest

/-- The Memory's canonical form. -/
def Memory.wf (m : Memory) : Bool := sparseWf m

/-- The CSR bank's canonical form. -/
def CsrBank.wf (c : CsrBank) : Bool := sparseWf c

end Sys2Proof.Machine
end

