-- ==== Sys2Proof/Machine/Ops.lean ====
section
/-! DEFINITION. The named operations over registers, the pc, the Memory behind the Bus, and the status: spec/10_state.md R20
to R24, spec/20_memory.md R50 to R62, spec/40_engine_cycle.md R110 to R114, spec/60_exceptions.md R220 to R230. -/

namespace Sys2Proof.Machine

/-! ### Registers and pc -/

/-- `x[i]`: x0 always reads 0 (R12, R21). -/
def State.reg (s : State) (i : RegIdx) : Word := if i = 0#5 then 0#64 else s.regs[i.toNat]

/-- `x[i] <- v`: a write with i = 0 is discarded (R12, R21). -/
def State.setReg (s : State) (i : RegIdx) (v : Word) : State :=
  if i = 0#5 then s else { s with regs := s.regs.set i.toNat v }

/-- `pc <- npc` (R114). -/
def State.setPc (s : State) (npc : Word) : State := { s with pc := npc }

/-- `npc = pc + 4`, modulo 2^64 (R113). -/
def State.pcPlus4 (s : State) : Word := s.pc + 4#64

/-! ### The Memory (R50 to R54) -/

/-- The byte at a byte address, `mem[a - MEM_BASE]` for an address of the window (R50). A byte nothing has written reads 0
(R253). -/
def State.byteAt (s : State) (a : Nat) : Byte := sparseRead s.mem a

/-- `MemRead(a, n)`: the n bytes at a..a+n-1, little-endian, as a 64-bit value with 0 above them (R12, R52). -/
def memRead (m : Memory) (a n : Nat) : Word :=
  match n with
  | 0 => 0#64
  | k + 1 => memRead m a k ||| ((sparseRead m (a + k)).setWidth 64 <<< (8 * k))

/-- `MemWrite(a, n, v)`: `mem[a + i] <- v[8i+7 : 8i]` for i from 0 to n-1 (R12, R59). -/
def memWrite (m : Memory) (a n : Nat) (v : Word) : Memory :=
  match n with
  | 0 => m
  | k + 1 => sparseWrite (memWrite m a k v) (a + k) (v.extractLsb' (8 * k) 8)

/-! ### The Bus (R53 to R60) -/

/-- `InWindow(a, n)` on unbounded integers (R53). `a + n - 1 <= MEM_BASE + MEM_SIZE - 1` is written without the two
subtractions (log 14). -/
def inWindow (p : Params) (a n : Nat) : Bool := p.memBase.toNat ≤ a && a + n ≤ p.memBase.toNat + p.memSize

/-- `FetchByte(a)` (R56). -/
def fetchByte (s : State) (a : Word) : Except Exn Byte :=
  if inWindow s.params a.toNat 1 then .ok (s.byteAt a.toNat) else .error (.instructionAccessFault a)

/-- `LoadS(a, n)`: the sign extension of the n bytes read (R57). The whole span is checked first (R60). -/
def loadSigned (s : State) (a : Word) (n : Width) : Except Exn Word :=
  if inWindow s.params a.toNat (widthBytes n) then
    .ok (((memRead s.mem a.toNat (widthBytes n)).extractLsb' 0 (8 * widthBytes n)).signExtend 64)
  else .error (.loadAccessFault a)

/-- `LoadU(a, n)`: the zero extension of the n bytes read (R58). The whole span is checked first (R60). -/
def loadUnsigned (s : State) (a : Word) (n : Width) : Except Exn Word :=
  if inWindow s.params a.toNat (widthBytes n) then .ok (memRead s.mem a.toNat (widthBytes n))
  else .error (.loadAccessFault a)

/-- `Store(a, n, v)`: the low n bytes of v, little-endian. No byte is written if any is out of the window (R59, R60). -/
def busStore (s : State) (a : Word) (n : Width) (v : Word) : Except Exn State :=
  if inWindow s.params a.toNat (widthBytes n) then .ok { s with mem := memWrite s.mem a.toNat (widthBytes n) v }
  else .error (.storeAMOAccessFault a)

/-- The one addressing mode, base plus offset: `x[rs1] + imm`, modulo 2^64 (R141, R152). -/
def effAddr (s : State) (rs1 : RegIdx) (imm : BitVec 12) : Word := s.reg rs1 + sextImm12 imm

/-! ### Exceptions and the halt (R220 to R230) -/

/-- `code(e)`, the numeric cause (R220, R221). -/
def excCode (e : Exn) : Nat :=
  match e with
  | .instructionAddressMisaligned _ => 0
  | .instructionAccessFault _ => 1
  | .illegalInstruction _ => 2
  | .breakpoint _ => 3
  | .loadAddressMisaligned _ => 4
  | .loadAccessFault _ => 5
  | .storeAMOAddressMisaligned _ => 6
  | .storeAMOAccessFault _ => 7
  | .environmentCallFromUMode _ => 8
  | .environmentCallFromSMode _ => 9
  | .environmentCallFromMMode _ => 11
  | .instructionPageFault _ => 12
  | .loadPageFault _ => 13
  | .storeAMOPageFault _ => 15

/-- `value(e)`, the carried payload (R220). -/
def excValue (e : Exn) : Word :=
  match e with
  | .instructionAddressMisaligned v => v
  | .instructionAccessFault v => v
  | .illegalInstruction v => v
  | .breakpoint v => v
  | .loadAddressMisaligned v => v
  | .loadAccessFault v => v
  | .storeAMOAddressMisaligned v => v
  | .storeAMOAccessFault v => v
  | .environmentCallFromUMode v => v
  | .environmentCallFromSMode v => v
  | .environmentCallFromMMode v => v
  | .instructionPageFault v => v
  | .loadPageFault v => v
  | .storeAMOPageFault v => v

/-- `is_fatal(e)`, the source's table as written (R224). It changes nothing in this hardware. -/
def excIsFatal (e : Exn) : Bool :=
  match e with
  | .instructionAddressMisaligned _ => true
  | .instructionAccessFault _ => true
  | .illegalInstruction _ => true
  | .breakpoint _ => false
  | .loadAddressMisaligned _ => false
  | .loadAccessFault _ => true
  | .storeAMOAddressMisaligned _ => true
  | .storeAMOAccessFault _ => true
  | .environmentCallFromUMode _ => false
  | .environmentCallFromSMode _ => false
  | .environmentCallFromMMode _ => false
  | .instructionPageFault _ => false
  | .loadPageFault _ => false
  | .storeAMOPageFault _ => false

/-- `status <- Halted(r)`; nothing else changes (R111, R230). -/
def State.halt (s : State) (r : HaltReason) : State := { s with status := .halted r }

/-- Taking an exception is a halt of the run with the exception as its reason: no CSR is written, no vector is read, the pc is
not redirected (R230). It is a next state (log 4). There is no return from it to model: the hardware has no trap return, and
no step runs after the halt (R231). -/
def takeException (s : State) (e : Exn) : Host.Outcome State Fault Refusal := .next (s.halt (.trap e))

/-- The zero word ends the run normally: `Halted(ZeroWord(pc))`, nothing else changes (R111). -/
def haltZeroWord (s : State) : Host.Outcome State Fault Refusal := .next (s.halt (.zeroWord s.pc))

/-- An unrecognized word raises `IllegalInstruction(zext_32(inst))` (R96). -/
def takeIllegal (s : State) (inst : InstWord) : Host.Outcome State Fault Refusal :=
  takeException s (.illegalInstruction (zext32 inst))

/-! ### Commit (R114) -/

/-- Commit a register result: `x[rd] <- v`, then `pc <- pc + 4` (R113, R114). -/
def commitReg (s : State) (rd : RegIdx) (v : Word) : Host.Outcome State Fault Refusal :=
  .next ((s.setReg rd v).setPc s.pcPlus4)

/-- Commit an instruction whose only effect is the next pc (R114). -/
def commitPc (s : State) (npc : Word) : Host.Outcome State Fault Refusal := .next (s.setPc npc)

/-! ### Fetch (R110) -/

/-- The four bytes at pc, pc+1, pc+2, pc+3 (modulo 2^64), read one at a time in that order; the first fault is the fetch's
(R110). -/
def fetchWord (s : State) : Except Exn InstWord :=
  match fetchByte s s.pc with
  | .error e => .error e
  | .ok b0 =>
    match fetchByte s (s.pc + 1#64) with
    | .error e => .error e
    | .ok b1 =>
      match fetchByte s (s.pc + 2#64) with
      | .error e => .error e
      | .ok b2 =>
        match fetchByte s (s.pc + 3#64) with
        | .error e => .error e
        | .ok b3 => .ok (leWord b0 b1 b2 b3)

/-- The fetched word that ends the run (R111). -/
def isZeroWord (inst : InstWord) : Bool := inst == 0#32

/-- Put one byte at a byte address of the window, and nothing outside it. -/
def placeByte (s : State) (a : Word) (b : Byte) : State :=
  if inWindow s.params a.toNat 1 then { s with mem := sparseWrite s.mem a.toNat b } else s

/-- Put a word's four bytes where the next fetch reads them, in a block that is running (log 7). -/
def placeWord (s : State) (inst : InstWord) : State :=
  let s1 := placeByte s s.pc (inst.extractLsb' 0 8)
  let s2 := placeByte s1 (s.pc + 1#64) (inst.extractLsb' 8 8)
  let s3 := placeByte s2 (s.pc + 2#64) (inst.extractLsb' 16 8)
  let s4 := placeByte s3 (s.pc + 3#64) (inst.extractLsb' 24 8)
  { s4 with status := .running }

end Sys2Proof.Machine
end

