-- ==== Sys2Proof/Machine/Branch.lean ====
section
/-! DEFINITION. The Branch class: spec/41_branch.md R130 to R139. -/

namespace Sys2Proof.Machine

/-- `target = pc + imm`, modulo 2^64 (R131). -/
def branchTarget (s : State) (imm : BitVec 13) : Word := s.pc + sextImm13 imm

/-- `target[1:0] != 0b00` (R131). -/
def misaligned (target : Word) : Bool := target.extractLsb' 0 2 != 0#2

/-- `Branch(cond)` (R131): a taken branch goes to the target, or raises InstructionAddressMisaligned(target) and commits
nothing. A branch not taken goes to pc + 4, whatever its offset. -/
def branchIf (s : State) (cond : Bool) (imm : BitVec 13) : Host.Outcome State Fault Refusal :=
  if cond then
    if misaligned (branchTarget s imm) then takeException s (.instructionAddressMisaligned (branchTarget s imm))
    else commitPc s (branchTarget s imm)
  else commitPc s s.pcPlus4

/-- `beq rs1, rs2, offset`: branch if equal (R132). -/
def execBeq (rs1 rs2 : RegIdx) (imm : BitVec 13) (s : State) : Host.Outcome State Fault Refusal :=
  branchIf s (cmpEq (s.reg rs1) (s.reg rs2)) imm

/-- `bne rs1, rs2, offset`: branch if not equal (R133). -/
def execBne (rs1 rs2 : RegIdx) (imm : BitVec 13) (s : State) : Host.Outcome State Fault Refusal :=
  branchIf s (!cmpEq (s.reg rs1) (s.reg rs2)) imm

/-- `blt rs1, rs2, offset`: branch if less than, signed (R134). -/
def execBlt (rs1 rs2 : RegIdx) (imm : BitVec 13) (s : State) : Host.Outcome State Fault Refusal :=
  branchIf s (cmpLtS (s.reg rs1) (s.reg rs2)) imm

/-- `bge rs1, rs2, offset`: branch if greater than or equal, signed (R135). -/
def execBge (rs1 rs2 : RegIdx) (imm : BitVec 13) (s : State) : Host.Outcome State Fault Refusal :=
  branchIf s (!cmpLtS (s.reg rs1) (s.reg rs2)) imm

/-- `bltu rs1, rs2, offset`: branch if less than, unsigned (R136). -/
def execBltu (rs1 rs2 : RegIdx) (imm : BitVec 13) (s : State) : Host.Outcome State Fault Refusal :=
  branchIf s (cmpLtU (s.reg rs1) (s.reg rs2)) imm

/-- `bgeu rs1, rs2, offset`: branch if greater than or equal, unsigned (R137). -/
def execBgeu (rs1 rs2 : RegIdx) (imm : BitVec 13) (s : State) : Host.Outcome State Fault Refusal :=
  branchIf s (!cmpLtU (s.reg rs1) (s.reg rs2)) imm

end Sys2Proof.Machine
end

