-- ==== Sys2Proof/Machine/Load.lean ====
section
/-! DEFINITION. The Load class: spec/42_load.md R140 to R150. -/

namespace Sys2Proof.Machine

/-- The end of every load (R142): the value goes to rd and the pc to pc + 4, or the LoadAccessFault is taken and nothing is
written. -/
def commitLoad (s : State) (rd : RegIdx) (r : Except Exn Word) : Host.Outcome State Fault Refusal :=
  match r with
  | .ok v => commitReg s rd v
  | .error e => takeException s e

/-- `Load(n, signed = true)` at x[rs1] + imm (R141, R142). -/
def loadS (s : State) (n : Width) (rd rs1 : RegIdx) (imm : BitVec 12) : Host.Outcome State Fault Refusal :=
  commitLoad s rd (loadSigned s (effAddr s rs1 imm) n)

/-- `Load(n, signed = false)` at x[rs1] + imm (R141, R142). -/
def loadU (s : State) (n : Width) (rd rs1 : RegIdx) (imm : BitVec 12) : Host.Outcome State Fault Refusal :=
  commitLoad s rd (loadUnsigned s (effAddr s rs1 imm) n)

/-- `lb rd, imm(rs1)`: load byte, signed (R143). -/
def execLb (rd rs1 : RegIdx) (imm : BitVec 12) (s : State) : Host.Outcome State Fault Refusal :=
  loadS s .byte rd rs1 imm

/-- `lh rd, imm(rs1)`: load halfword, signed (R144). -/
def execLh (rd rs1 : RegIdx) (imm : BitVec 12) (s : State) : Host.Outcome State Fault Refusal :=
  loadS s .half rd rs1 imm

/-- `lw rd, imm(rs1)`: load word, signed (R145). -/
def execLw (rd rs1 : RegIdx) (imm : BitVec 12) (s : State) : Host.Outcome State Fault Refusal :=
  loadS s .word rd rs1 imm

/-- `ld rd, imm(rs1)`: load doubleword (R146). -/
def execLd (rd rs1 : RegIdx) (imm : BitVec 12) (s : State) : Host.Outcome State Fault Refusal :=
  loadS s .double rd rs1 imm

/-- `lbu rd, imm(rs1)`: load byte, unsigned (R147). -/
def execLbu (rd rs1 : RegIdx) (imm : BitVec 12) (s : State) : Host.Outcome State Fault Refusal :=
  loadU s .byte rd rs1 imm

/-- `lhu rd, imm(rs1)`: load halfword, unsigned (R148). -/
def execLhu (rd rs1 : RegIdx) (imm : BitVec 12) (s : State) : Host.Outcome State Fault Refusal :=
  loadU s .half rd rs1 imm

/-- `lwu rd, imm(rs1)`: load word, unsigned (R149). -/
def execLwu (rd rs1 : RegIdx) (imm : BitVec 12) (s : State) : Host.Outcome State Fault Refusal :=
  loadU s .word rd rs1 imm

end Sys2Proof.Machine
end

