-- ==== Sys2Proof/Machine/Op.lean ====
section
/-! DEFINITION. The R-type 64-bit class: spec/44_op.md R160 to R173. -/

namespace Sys2Proof.Machine

/-- `Op(f)` (R161): `x[rd] <- f(x[rs1], x[rs2])`, both read before rd is written. -/
def opReg64 (s : State) (f : Word → Word → Word) (rd rs1 rs2 : RegIdx) : Host.Outcome State Fault Refusal :=
  commitReg s rd (f (s.reg rs1) (s.reg rs2))

/-- `add rd, rs1, rs2`: add, modulo 2^64 (R162). -/
def execAdd (rd rs1 rs2 : RegIdx) (s : State) : Host.Outcome State Fault Refusal :=
  opReg64 s (fun a b => a + b) rd rs1 rs2

/-- `sub rd, rs1, rs2`: subtract, modulo 2^64 (R163). -/
def execSub (rd rs1 rs2 : RegIdx) (s : State) : Host.Outcome State Fault Refusal :=
  opReg64 s (fun a b => a - b) rd rs1 rs2

/-- `sll rd, rs1, rs2`: shift left logical by b[5:0] (R164). -/
def execSll (rd rs1 rs2 : RegIdx) (s : State) : Host.Outcome State Fault Refusal :=
  opReg64 s (fun a b => a <<< regShamt b) rd rs1 rs2

/-- `slt rd, rs1, rs2`: set if less than, signed (R165). -/
def execSlt (rd rs1 rs2 : RegIdx) (s : State) : Host.Outcome State Fault Refusal :=
  opReg64 s (fun a b => bool2u64 (cmpLtS a b)) rd rs1 rs2

/-- `sltu rd, rs1, rs2`: set if less than, unsigned (R166). -/
def execSltu (rd rs1 rs2 : RegIdx) (s : State) : Host.Outcome State Fault Refusal :=
  opReg64 s (fun a b => bool2u64 (cmpLtU a b)) rd rs1 rs2

/-- `xor rd, rs1, rs2`: exclusive or (R167). -/
def execXor (rd rs1 rs2 : RegIdx) (s : State) : Host.Outcome State Fault Refusal :=
  opReg64 s (fun a b => a ^^^ b) rd rs1 rs2

/-- `srl rd, rs1, rs2`: shift right logical by b[5:0] (R168). -/
def execSrl (rd rs1 rs2 : RegIdx) (s : State) : Host.Outcome State Fault Refusal :=
  opReg64 s (fun a b => a >>> regShamt b) rd rs1 rs2

/-- `sra rd, rs1, rs2`: shift right arithmetic by b[5:0] (R169). -/
def execSra (rd rs1 rs2 : RegIdx) (s : State) : Host.Outcome State Fault Refusal :=
  opReg64 s (fun a b => a.sshiftRight' (regShamt b)) rd rs1 rs2

/-- `or rd, rs1, rs2`: inclusive or (R170). -/
def execOr (rd rs1 rs2 : RegIdx) (s : State) : Host.Outcome State Fault Refusal :=
  opReg64 s (fun a b => a ||| b) rd rs1 rs2

/-- `and rd, rs1, rs2`: and (R171). -/
def execAnd (rd rs1 rs2 : RegIdx) (s : State) : Host.Outcome State Fault Refusal :=
  opReg64 s (fun a b => a &&& b) rd rs1 rs2

end Sys2Proof.Machine
end

