-- ==== Sys2Proof/Machine/Op32.lean ====
section
/-! DEFINITION. The R-type word class: spec/45_op32.md R180 to R188. -/

namespace Sys2Proof.Machine

/-- `OpW(f)` (R181): `x[rd] <- sext_32(f(x[rs1], x[rs2]))`, with a 32-bit `f`. -/
def opReg32W (s : State) (f : Word → Word → BitVec 32) (rd rs1 rs2 : RegIdx) : Host.Outcome State Fault Refusal :=
  commitReg s rd (sext32 (f (s.reg rs1) (s.reg rs2)))

/-- A register word shift (R184 to R187): the amount is b[5:0], and the operand is the low word of a whatever the amount (R181,
decision D31). With shamt[5] = 0 the result is its 32-bit shift `g`. Otherwise it is the free value `WORD_SHIFT_HI` (log 2). -/
def wordShift (op : WordShiftOp) (g : BitVec 32 → BitVec 6 → BitVec 32) (a b : Word) : BitVec 32 :=
  if (regShamt b).extractLsb' 5 1 = 0#1 then g (low32 a) (regShamt b) else Config.wordShiftHi op (low32 a) (regShamt b)

/-- `addw rd, rs1, rs2`: add word (R182). -/
def execAddw (rd rs1 rs2 : RegIdx) (s : State) : Host.Outcome State Fault Refusal :=
  opReg32W s (fun a b => low32 (a + b)) rd rs1 rs2

/-- `subw rd, rs1, rs2`: subtract word (R183). -/
def execSubw (rd rs1 rs2 : RegIdx) (s : State) : Host.Outcome State Fault Refusal :=
  opReg32W s (fun a b => low32 (a - b)) rd rs1 rs2

/-- `sllw rd, rs1, rs2`: shift left logical word (R184). -/
def execSllw (rd rs1 rs2 : RegIdx) (s : State) : Host.Outcome State Fault Refusal :=
  opReg32W s (fun a b => wordShift .sllw (fun x n => x <<< n) a b) rd rs1 rs2

/-- `srlw rd, rs1, rs2`: shift right logical word (R185). -/
def execSrlw (rd rs1 rs2 : RegIdx) (s : State) : Host.Outcome State Fault Refusal :=
  opReg32W s (fun a b => wordShift .srlw (fun x n => x >>> n) a b) rd rs1 rs2

/-- `sraw rd, rs1, rs2`: shift right arithmetic word (R186). -/
def execSraw (rd rs1 rs2 : RegIdx) (s : State) : Host.Outcome State Fault Refusal :=
  opReg32W s (fun a b => wordShift .sraw (fun x n => x.sshiftRight' n) a b) rd rs1 rs2

end Sys2Proof.Machine
end

