-- ==== Sys2Proof/Machine/OpImm.lean ====
section
/-! DEFINITION. The I-type 64-bit class: spec/46_opimm.md R190 to R201. -/

namespace Sys2Proof.Machine

/-- `OpI(f)` (R191): `x[rd] <- f(x[rs1])`, where `f` holds the immediate or the shift amount. -/
def opImm64 (s : State) (f : Word → Word) (rd rs1 : RegIdx) : Host.Outcome State Fault Refusal :=
  commitReg s rd (f (s.reg rs1))

/-- `addi rd, rs1, imm`: add immediate, modulo 2^64 (R192). -/
def execAddi (rd rs1 : RegIdx) (imm : BitVec 12) (s : State) : Host.Outcome State Fault Refusal :=
  opImm64 s (fun a => a + sextImm12 imm) rd rs1

/-- `slti rd, rs1, imm`: set if less than immediate, signed (R193). -/
def execSlti (rd rs1 : RegIdx) (imm : BitVec 12) (s : State) : Host.Outcome State Fault Refusal :=
  opImm64 s (fun a => bool2u64 (cmpLtS a (sextImm12 imm))) rd rs1

/-- `sltiu rd, rs1, imm`: set if less than immediate, unsigned (R194). -/
def execSltiu (rd rs1 : RegIdx) (imm : BitVec 12) (s : State) : Host.Outcome State Fault Refusal :=
  opImm64 s (fun a => bool2u64 (cmpLtU a (sextImm12 imm))) rd rs1

/-- `xori rd, rs1, imm`: exclusive or immediate (R195). -/
def execXori (rd rs1 : RegIdx) (imm : BitVec 12) (s : State) : Host.Outcome State Fault Refusal :=
  opImm64 s (fun a => a ^^^ sextImm12 imm) rd rs1

/-- `ori rd, rs1, imm`: or immediate (R196). -/
def execOri (rd rs1 : RegIdx) (imm : BitVec 12) (s : State) : Host.Outcome State Fault Refusal :=
  opImm64 s (fun a => a ||| sextImm12 imm) rd rs1

/-- `andi rd, rs1, imm`: and immediate (R197). -/
def execAndi (rd rs1 : RegIdx) (imm : BitVec 12) (s : State) : Host.Outcome State Fault Refusal :=
  opImm64 s (fun a => a &&& sextImm12 imm) rd rs1

/-- `slli rd, rs1, shamt`: shift left logical immediate (R198). -/
def execSlli (rd rs1 : RegIdx) (shamt : BitVec 6) (s : State) : Host.Outcome State Fault Refusal :=
  opImm64 s (fun a => a <<< shamt) rd rs1

/-- `srli rd, rs1, shamt`: shift right logical immediate (R199). -/
def execSrli (rd rs1 : RegIdx) (shamt : BitVec 6) (s : State) : Host.Outcome State Fault Refusal :=
  opImm64 s (fun a => a >>> shamt) rd rs1

/-- `srai rd, rs1, shamt`: shift right arithmetic immediate (R200). -/
def execSrai (rd rs1 : RegIdx) (shamt : BitVec 6) (s : State) : Host.Outcome State Fault Refusal :=
  opImm64 s (fun a => a.sshiftRight' shamt) rd rs1

end Sys2Proof.Machine
end

