-- ==== Sys2Proof/Machine/OpImm32.lean ====
section
/-! DEFINITION. The I-type word class: spec/47_opimm32.md R210 to R216. -/

namespace Sys2Proof.Machine

/-- `OpIW(f)` (R211): `x[rd] <- sext_32(f(x[rs1]))`, with a 32-bit `f` that holds the immediate or the shift amount. -/
def opImm32W (s : State) (f : Word → BitVec 32) (rd rs1 : RegIdx) : Host.Outcome State Fault Refusal :=
  commitReg s rd (sext32 (f (s.reg rs1)))

/-- `addiw rd, rs1, imm`: add immediate word (R212). -/
def execAddiw (rd rs1 : RegIdx) (imm : BitVec 12) (s : State) : Host.Outcome State Fault Refusal :=
  opImm32W s (fun a => low32 (a + sextImm12 imm)) rd rs1

/-- `slliw rd, rs1, shamt`: shift left logical immediate word (R213). -/
def execSlliw (rd rs1 : RegIdx) (shamt : BitVec 5) (s : State) : Host.Outcome State Fault Refusal :=
  opImm32W s (fun a => low32 a <<< shamt) rd rs1

/-- `srliw rd, rs1, shamt`: shift right logical immediate word (R214). -/
def execSrliw (rd rs1 : RegIdx) (shamt : BitVec 5) (s : State) : Host.Outcome State Fault Refusal :=
  opImm32W s (fun a => low32 a >>> shamt) rd rs1

/-- `sraiw rd, rs1, shamt`: shift right arithmetic immediate word (R215). -/
def execSraiw (rd rs1 : RegIdx) (shamt : BitVec 5) (s : State) : Host.Outcome State Fault Refusal :=
  opImm32W s (fun a => (low32 a).sshiftRight' shamt) rd rs1

end Sys2Proof.Machine
end

