-- ==== Sys2Proof/Machine/Store.lean ====
section
/-! DEFINITION. The Store class: spec/43_store.md R151 to R157. -/

namespace Sys2Proof.Machine

/-- `StoreN(n)` at x[rs1] + imm (R152): the low n bytes of x[rs2] are stored and the pc goes to pc + 4, or the
StoreAMOAccessFault is taken and no byte is written. -/
def storeN (s : State) (n : Width) (rs1 rs2 : RegIdx) (imm : BitVec 12) : Host.Outcome State Fault Refusal :=
  match busStore s (effAddr s rs1 imm) n (s.reg rs2) with
  | .ok t => commitPc t s.pcPlus4
  | .error e => takeException s e

/-- `sb rs2, imm(rs1)`: store byte (R153). -/
def execSb (rs1 rs2 : RegIdx) (imm : BitVec 12) (s : State) : Host.Outcome State Fault Refusal :=
  storeN s .byte rs1 rs2 imm

/-- `sh rs2, imm(rs1)`: store halfword (R154). -/
def execSh (rs1 rs2 : RegIdx) (imm : BitVec 12) (s : State) : Host.Outcome State Fault Refusal :=
  storeN s .half rs1 rs2 imm

/-- `sw rs2, imm(rs1)`: store word (R155). -/
def execSw (rs1 rs2 : RegIdx) (imm : BitVec 12) (s : State) : Host.Outcome State Fault Refusal :=
  storeN s .word rs1 rs2 imm

/-- `sd rs2, imm(rs1)`: store doubleword (R156). -/
def execSd (rs1 rs2 : RegIdx) (imm : BitVec 12) (s : State) : Host.Outcome State Fault Refusal :=
  storeN s .double rs1 rs2 imm

end Sys2Proof.Machine
end

