-- ==== Sys2Proof/Machine/Step.lean ====
section
/-! DEFINITION. One step of the block: spec/40_engine_cycle.md R115, `step()`. Each of its parts is an operation of
Machine/Ops.lean. -/

namespace Sys2Proof.Machine

/-- `step()` (R115): a halted block does nothing. A running one fetches, halts on the zero word, decodes, and executes. The
reply `Continue` or `Halt(reason)` is the status of the state it leaves (`stepReply`, log 4). -/
def step (s : State) : Host.Outcome State Fault Refusal :=
  match s.status with
  | .halted _ => .next s
  | .running =>
    match fetchWord s with
    | .error e => takeException s e
    | .ok inst =>
      if isZeroWord inst then haltZeroWord s
      else
        match decodeWord inst with
        | .error _ => takeIllegal s inst
        | .ok i => exec i s

/-- The state with an instruction, numbered as spec/opcode_table.json numbers its bits, stored where the next step fetches,
in a block that is running (log 7). -/
def State.withFetchWord (s : State) (nbits w : Nat) : State := placeWord s (tableWord nbits w)

end Sys2Proof.Machine
end

