-- ==== Sys2Proof/Machine/Assembly.lean ====
section
/-! DEFINITION. The assembly text of spec/30_encoding.md R101 and the pseudo-instructions of R102, each as the instruction it
expands to. Text only: nothing of the machine reads it. -/

namespace Sys2Proof.Machine

/-- A register as `x0` to `x31` (R101). -/
def regText (r : RegIdx) : String := "x" ++ toString r.toNat

/-- `op rd, rs1, rs2` (R101). -/
def asmR (op : String) (rd rs1 rs2 : RegIdx) : String := op ++ " " ++ regText rd ++ ", " ++ regText rs1 ++ ", " ++ regText rs2

/-- `op rd, rs1, imm` (R101). -/
def asmI (op : String) (rd rs1 : RegIdx) (imm : Int) : String :=
  op ++ " " ++ regText rd ++ ", " ++ regText rs1 ++ ", " ++ toString imm

/-- `op r, imm(rs1)`, the form of loads (r is rd) and stores (r is rs2) (R101). -/
def asmMem (op : String) (r rs1 : RegIdx) (imm : Int) : String :=
  op ++ " " ++ regText r ++ ", " ++ toString imm ++ "(" ++ regText rs1 ++ ")"

/-- The assembly text of an instruction, with a branch's byte offset written as a number (R101). -/
def assemblyText (i : Instr) : String :=
  match i with
  | .beq rs1 rs2 imm => asmI "beq" rs1 rs2 imm.toInt
  | .bne rs1 rs2 imm => asmI "bne" rs1 rs2 imm.toInt
  | .blt rs1 rs2 imm => asmI "blt" rs1 rs2 imm.toInt
  | .bge rs1 rs2 imm => asmI "bge" rs1 rs2 imm.toInt
  | .bltu rs1 rs2 imm => asmI "bltu" rs1 rs2 imm.toInt
  | .bgeu rs1 rs2 imm => asmI "bgeu" rs1 rs2 imm.toInt
  | .lb rd rs1 imm => asmMem "lb" rd rs1 imm.toInt
  | .lh rd rs1 imm => asmMem "lh" rd rs1 imm.toInt
  | .lw rd rs1 imm => asmMem "lw" rd rs1 imm.toInt
  | .ld rd rs1 imm => asmMem "ld" rd rs1 imm.toInt
  | .lbu rd rs1 imm => asmMem "lbu" rd rs1 imm.toInt
  | .lhu rd rs1 imm => asmMem "lhu" rd rs1 imm.toInt
  | .lwu rd rs1 imm => asmMem "lwu" rd rs1 imm.toInt
  | .sb rs1 rs2 imm => asmMem "sb" rs2 rs1 imm.toInt
  | .sh rs1 rs2 imm => asmMem "sh" rs2 rs1 imm.toInt
  | .sw rs1 rs2 imm => asmMem "sw" rs2 rs1 imm.toInt
  | .sd rs1 rs2 imm => asmMem "sd" rs2 rs1 imm.toInt
  | .add rd rs1 rs2 => asmR "add" rd rs1 rs2
  | .sub rd rs1 rs2 => asmR "sub" rd rs1 rs2
  | .sll rd rs1 rs2 => asmR "sll" rd rs1 rs2
  | .slt rd rs1 rs2 => asmR "slt" rd rs1 rs2
  | .sltu rd rs1 rs2 => asmR "sltu" rd rs1 rs2
  | .xor rd rs1 rs2 => asmR "xor" rd rs1 rs2
  | .srl rd rs1 rs2 => asmR "srl" rd rs1 rs2
  | .sra rd rs1 rs2 => asmR "sra" rd rs1 rs2
  | .or rd rs1 rs2 => asmR "or" rd rs1 rs2
  | .and rd rs1 rs2 => asmR "and" rd rs1 rs2
  | .addw rd rs1 rs2 => asmR "addw" rd rs1 rs2
  | .subw rd rs1 rs2 => asmR "subw" rd rs1 rs2
  | .sllw rd rs1 rs2 => asmR "sllw" rd rs1 rs2
  | .srlw rd rs1 rs2 => asmR "srlw" rd rs1 rs2
  | .sraw rd rs1 rs2 => asmR "sraw" rd rs1 rs2
  | .addi rd rs1 imm => asmI "addi" rd rs1 imm.toInt
  | .slti rd rs1 imm => asmI "slti" rd rs1 imm.toInt
  | .sltiu rd rs1 imm => asmI "sltiu" rd rs1 imm.toInt
  | .xori rd rs1 imm => asmI "xori" rd rs1 imm.toInt
  | .ori rd rs1 imm => asmI "ori" rd rs1 imm.toInt
  | .andi rd rs1 imm => asmI "andi" rd rs1 imm.toInt
  | .slli rd rs1 shamt => asmI "slli" rd rs1 shamt.toNat
  | .srli rd rs1 shamt => asmI "srli" rd rs1 shamt.toNat
  | .srai rd rs1 shamt => asmI "srai" rd rs1 shamt.toNat
  | .addiw rd rs1 imm => asmI "addiw" rd rs1 imm.toInt
  | .slliw rd rs1 shamt => asmI "slliw" rd rs1 shamt.toNat
  | .srliw rd rs1 shamt => asmI "srliw" rd rs1 shamt.toNat
  | .sraiw rd rs1 shamt => asmI "sraiw" rd rs1 shamt.toNat

/-- The standard pseudo-instructions that expand to one instruction of this hardware (R102). -/
inductive Pseudo where
  | nop
  | li (rd : RegIdx) (imm : BitVec 12)
  | mv (rd rs : RegIdx)
  | not (rd rs : RegIdx)
  | neg (rd rs : RegIdx)
  | negw (rd rs : RegIdx)
  | sextW (rd rs : RegIdx)
  | zextB (rd rs : RegIdx)
  | seqz (rd rs : RegIdx)
  | snez (rd rs : RegIdx)
  | sltz (rd rs : RegIdx)
  | sgtz (rd rs : RegIdx)
  | beqz (rs : RegIdx) (off : BitVec 13)
  | bnez (rs : RegIdx) (off : BitVec 13)
  | blez (rs : RegIdx) (off : BitVec 13)
  | bgez (rs : RegIdx) (off : BitVec 13)
  | bltz (rs : RegIdx) (off : BitVec 13)
  | bgtz (rs : RegIdx) (off : BitVec 13)
  | bgt (rs rt : RegIdx) (off : BitVec 13)
  | ble (rs rt : RegIdx) (off : BitVec 13)
  | bgtu (rs rt : RegIdx) (off : BitVec 13)
  | bleu (rs rt : RegIdx) (off : BitVec 13)
deriving DecidableEq, Repr

/-- The expansion column of R102. -/
def expandPseudo (p : Pseudo) : Instr :=
  match p with
  | .nop => .addi 0#5 0#5 0#12
  | .li rd imm => .addi rd 0#5 imm
  | .mv rd rs => .addi rd rs 0#12
  | .not rd rs => .xori rd rs (-1#12)
  | .neg rd rs => .sub rd 0#5 rs
  | .negw rd rs => .subw rd 0#5 rs
  | .sextW rd rs => .addiw rd rs 0#12
  | .zextB rd rs => .andi rd rs 255#12
  | .seqz rd rs => .sltiu rd rs 1#12
  | .snez rd rs => .sltu rd 0#5 rs
  | .sltz rd rs => .slt rd rs 0#5
  | .sgtz rd rs => .slt rd 0#5 rs
  | .beqz rs off => .beq rs 0#5 off
  | .bnez rs off => .bne rs 0#5 off
  | .blez rs off => .bge 0#5 rs off
  | .bgez rs off => .bge rs 0#5 off
  | .bltz rs off => .blt rs 0#5 off
  | .bgtz rs off => .blt 0#5 rs off
  | .bgt rs rt off => .blt rt rs off
  | .ble rs rt off => .bge rt rs off
  | .bgtu rs rt off => .bltu rt rs off
  | .bleu rs rt off => .bgeu rt rs off

end Sys2Proof.Machine
end

