-- ==== Sys2Proof/Machine/Construct.lean ====
section
/-! DEFINITION. Construction, the only reset: spec/70_reset_and_hazards.md R250 to R256. The parameters of
spec/00_scope.md R8 are arguments. -/

namespace Sys2Proof.Machine

/-- x0 = 0 and x1 to x31 = `INIT_X` (R251). -/
def initRegs (initX : Vector Word 31) : Vector Word 32 := Vector.ofFn fun i => if h : i.val = 0 then 0#64 else initX[i.val - 1]

/-- `mem[i] = image[i]`, from the byte address `a` on (R253). -/
def loadImage (m : Memory) (a : Nat) (image : List Byte) : Memory :=
  match image with
  | [] => m
  | b :: rest => loadImage (sparseWrite m a b) (a + 1) rest

/-- The block that construction makes of an image that fits (R251 to R256). -/
def constructed (p : Params) (initX : Vector Word 31) (image : List Byte) : State :=
  { regs := initRegs initX
    pc := p.memBase
    mem := loadImage [] p.memBase.toNat image
    csr := []
    status := .running
    params := p }

/-- `construct(image)`: refused, with no block, if the image is longer than `MEM_SIZE` (R250). -/
def construct (p : Params) (initX : Vector Word 31) (image : List Byte) : Option State :=
  if image.length ≤ p.memSize then some (constructed p initX image) else none

end Sys2Proof.Machine
end

