-- ==== Sys2Proof/Machine/Csr.lean ====
section
/-! DEFINITION. The CSR bank and the CSR port: spec/10_state.md R27 to R39, R42. No instruction reaches the bank (R39); the
host reads and writes it between steps (spec/70_reset_and_hazards.md R259). -/

namespace Sys2Proof.Machine

/-! ### The named indices (R28) -/

def csrSstatus : CsrIdx := 0x100#12
def csrSie : CsrIdx := 0x104#12
def csrSip : CsrIdx := 0x144#12
def csrMstatus : CsrIdx := 0x300#12
def csrMideleg : CsrIdx := 0x303#12
def csrMie : CsrIdx := 0x304#12
def csrMip : CsrIdx := 0x344#12

/-! ### The entries (R27) -/

/-- `csr[a]`, the entry itself (R27). An entry nothing has written holds 0 (R256). -/
def State.csrEntry (s : State) (a : CsrIdx) : Word := sparseRead s.csr a.toNat

/-- `csr[a] <- v`, the entry itself. Nothing else changes. -/
def State.setCsrEntry (s : State) (a : CsrIdx) (v : Word) : State := { s with csr := sparseWrite s.csr a.toNat v }

/-- `(old & ~mask) | (v & mask)`: the bits of the mask are replaced (R36 to R38). -/
def maskedWrite (old mask v : Word) : Word := (old &&& ~~~mask) ||| (v &&& mask)

/-! ### The port (R31 to R39): every index is legal and no access faults -/

/-- `CsrRead(a)`: the three views read masked bits of their backing entries, every other index its own entry
(R31 to R34). -/
def csrRead (s : State) (a : CsrIdx) : Word :=
  if a = csrSstatus then s.csrEntry csrMstatus &&& s.params.sstatusMask
  else if a = csrSie then s.csrEntry csrMie &&& s.csrEntry csrMideleg
  else if a = csrSip then s.csrEntry csrMip &&& s.csrEntry csrMideleg
  else s.csrEntry a

/-- `CsrWrite(a, v)`: the three views replace masked bits of their backing entries, every other index its own entry
(R35 to R38). A sip write goes to mip (decision D24). -/
def csrWrite (s : State) (a : CsrIdx) (v : Word) : State :=
  if a = csrSstatus then s.setCsrEntry csrMstatus (maskedWrite (s.csrEntry csrMstatus) s.params.sstatusMask v)
  else if a = csrSie then s.setCsrEntry csrMie (maskedWrite (s.csrEntry csrMie) (s.csrEntry csrMideleg) v)
  else if a = csrSip then s.setCsrEntry csrMip (maskedWrite (s.csrEntry csrMip) (s.csrEntry csrMideleg) v)
  else s.setCsrEntry a v

/-- The fields of mstatus in the reference `SSTATUS_MASK`, as (name, highest bit, lowest bit) (R42). Documentation of the mask:
the engine interprets no field (R29). -/
def sstatusFields : List (String × Nat × Nat) :=
  [("SIE", 1, 1), ("SPIE", 5, 5), ("UBE", 6, 6), ("SPP", 8, 8), ("FS", 14, 13), ("XS", 16, 15), ("SUM", 18, 18),
   ("MXR", 19, 19), ("UXL", 33, 32), ("SD", 63, 63)]

/-- The mask of the bits hi down to lo. -/
def bitsMask (hi lo : Nat) : Word := BitVec.ofNat 64 ((2 ^ (hi - lo + 1) - 1) * 2 ^ lo)

end Sys2Proof.Machine
end

