-- ==== Sys2Proof/Machine/Debug.lean ====
section
/-! DEFINITION. The debug port, which reads state only: spec/60_exceptions.md R240 to R242, with the register names of
spec/10_state.md R22. The layout of the register dump is an external collaborator (spec/00_scope.md R5). -/

namespace Sys2Proof.Machine

/-- The calling-convention names of x0 to x31, in index order (R22). -/
def regNames : List (String × RegIdx) :=
  [("zero", 0#5), ("ra", 1#5), ("sp", 2#5), ("gp", 3#5), ("tp", 4#5), ("t0", 5#5), ("t1", 6#5), ("t2", 7#5),
   ("s0", 8#5), ("s1", 9#5), ("a0", 10#5), ("a1", 11#5), ("a2", 12#5), ("a3", 13#5), ("a4", 14#5), ("a5", 15#5),
   ("a6", 16#5), ("a7", 17#5), ("s2", 18#5), ("s3", 19#5), ("s4", 20#5), ("s5", 21#5), ("s6", 22#5), ("s7", 23#5),
   ("s8", 24#5), ("s9", 25#5), ("s10", 26#5), ("s11", 27#5), ("t3", 28#5), ("t4", 29#5), ("t5", 30#5), ("t6", 31#5)]

/-- The raw-index names x0 to x31 (R242, decision D28). -/
def rawNames : List (String × RegIdx) :=
  [("x0", 0#5), ("x1", 1#5), ("x2", 2#5), ("x3", 3#5), ("x4", 4#5), ("x5", 5#5), ("x6", 6#5), ("x7", 7#5),
   ("x8", 8#5), ("x9", 9#5), ("x10", 10#5), ("x11", 11#5), ("x12", 12#5), ("x13", 13#5), ("x14", 14#5), ("x15", 15#5),
   ("x16", 16#5), ("x17", 17#5), ("x18", 18#5), ("x19", 19#5), ("x20", 20#5), ("x21", 21#5), ("x22", 22#5), ("x23", 23#5),
   ("x24", 24#5), ("x25", 25#5), ("x26", 26#5), ("x27", 27#5), ("x28", 28#5), ("x29", 29#5), ("x30", 30#5), ("x31", 31#5)]

/-- Every name of a register: calling-convention, raw-index, and `fp` for x8 (R242). -/
def lookupNames : List (String × RegIdx) := regNames ++ rawNames ++ [("fp", 8#5)]

/-- The reply of the lookup: the current value, or the condition `InvalidRegister(name)`, which is no exception (R242). -/
inductive LookupReply where
  | value (v : Word)
  | invalidRegister (name : String)
deriving DecidableEq, Repr

/-- `read_x(i)` (R240). -/
def readX (s : State) (i : RegIdx) : Word := s.reg i

/-- `read_pc()` (R240). -/
def readPc (s : State) : Word := s.pc

/-- `lookup(name)` (R242). -/
def lookupRegister (s : State) (name : String) : LookupReply :=
  if name = "pc" then .value (readPc s)
  else
    match lookupNames.lookup name with
    | some i => .value (readX s i)
    | none => .invalidRegister name

/-- The content of the register dump: the 32 pairs (name, x[i]) in index order (R241). -/
def registerDump (s : State) : List (String × Word) := regNames.map fun p => (p.1, readX s p.2)

end Sys2Proof.Machine
end

