-- ==== Sys2Proof/Machine/HostPort.lean ====
section
/-! DEFINITION. What the host can do to a constructed block, between steps: spec/00_scope.md R9,
spec/70_reset_and_hazards.md R259. The host has no write path to registers, pc or Memory (log 12). -/

namespace Sys2Proof.Machine

/-- What `step()` returns (R9, R115). -/
inductive StepReply where
  | continues
  | halts (reason : HaltReason)
deriving DecidableEq, Repr

/-- The reply that goes with the state a step leaves: `Halt(r)` exactly when it is `Halted(r)` (R115). -/
def stepReply (s : State) : StepReply :=
  match s.status with
  | .running => .continues
  | .halted r => .halts r

/-- One host operation on a constructed block (R9). -/
inductive HostOp where
  | step
  | status
  | csrLoad (a : CsrIdx)
  | csrStore (a : CsrIdx) (v : Word)
  | readX (i : RegIdx)
  | readPc
  | lookup (name : String)
  | dump
deriving DecidableEq, Repr

/-- What the host gets back (R259). -/
inductive HostReply where
  | step (r : StepReply)
  | status (r : Status)
  | word (v : Word)
  | done
  | lookup (r : LookupReply)
  | dump (rows : List (String × Word))
deriving DecidableEq, Repr

/-- The state an outcome leaves: the next state, or the state before where there is none. -/
def outcomeState (s : State) (o : Host.Outcome State Fault Refusal) : State :=
  match o with
  | .next t => t
  | .fault _ => s
  | .refused _ => s

/-- The state after a host operation: only `step` and `csr_store` change it (R240, R259). -/
def hostNext (op : HostOp) (s : State) : State :=
  match op with
  | .step => outcomeState s (Sys2Proof.Machine.step s)
  | .csrStore a v => csrWrite s a v
  | .status => s
  | .csrLoad _ => s
  | .readX _ => s
  | .readPc => s
  | .lookup _ => s
  | .dump => s

/-- The reply to a host operation (R259). -/
def hostReply (op : HostOp) (s : State) : HostReply :=
  match op with
  | .step => .step (stepReply (hostNext .step s))
  | .status => .status s.status
  | .csrLoad a => .word (csrRead s a)
  | .csrStore _ _ => .done
  | .readX i => .word (Sys2Proof.Machine.readX s i)
  | .readPc => .word (Sys2Proof.Machine.readPc s)
  | .lookup name => .lookup (lookupRegister s name)
  | .dump => .dump (registerDump s)

/-- The state after a sequence of host operations. -/
def hostRun (ops : List HostOp) (s : State) : State :=
  match ops with
  | [] => s
  | op :: rest => hostRun rest (hostNext op s)

end Sys2Proof.Machine
end

