-- ==== Sys2Proof/Safety.lean ====
section
/-! DEFINITION. The terms of the claims: what a step may change (frames), the invariant of the block, and the runs of the host.
Every exception of this hardware ends the run (spec/60_exceptions.md R230), so a safe run is one whose states meet
`State.Inv`; it goes on as long as the status is Running. -/

namespace Sys2Proof.Machine

/-! ### Frames: what changes from `s` to `t`, said through the reads of the state -/

/-- Every register reads as before. -/
def SameRegs (s t : State) : Prop := ∀ r, t.reg r = s.reg r

/-- Every byte of the Memory reads as before. -/
def SameBytes (s t : State) : Prop := ∀ a, t.byteAt a = s.byteAt a

/-- Every entry of the CSR bank is as before. -/
def SameCsr (s t : State) : Prop := ∀ a, t.csrEntry a = s.csrEntry a

/-- Register `rd` takes the value `v` (if `rd` is x0 the write is discarded, R21), the pc goes to pc + 4 modulo 2^64, and
nothing else changes: every other register, every byte, every CSR entry, the status and the parameters. -/
structure RegisterOnly (s t : State) (rd : RegIdx) (v : Word) : Prop where
  regs : ∀ r, t.reg r = if r = rd ∧ rd ≠ 0#5 then v else s.reg r
  pc : t.pc.toNat = (s.pc.toNat + 4) % 2 ^ 64
  bytes : SameBytes s t
  csr : SameCsr s t
  status : t.status = s.status
  params : t.params = s.params

/-- The pc goes to `npc` and nothing else changes. -/
structure JumpsOnly (s t : State) (npc : Word) : Prop where
  regs : SameRegs s t
  pc : t.pc = npc
  bytes : SameBytes s t
  csr : SameCsr s t
  status : t.status = s.status
  params : t.params = s.params

/-- The `n` bytes from address `a` take the low `n` bytes of `v`, the least significant at `a` (R52, R59), the pc goes to
pc + 4 modulo 2^64, and nothing else changes: every other byte, every register, every CSR entry, the status and the
parameters. -/
structure StoresOnly (s t : State) (a n : Nat) (v : Word) : Prop where
  stored : ∀ k, k < n → (t.byteAt (a + k)).toNat = v.toNat / 256 ^ k % 256
  otherBytes : ∀ b, b < a ∨ a + n ≤ b → t.byteAt b = s.byteAt b
  regs : SameRegs s t
  pc : t.pc.toNat = (s.pc.toNat + 4) % 2 ^ 64
  csr : SameCsr s t
  status : t.status = s.status
  params : t.params = s.params

/-- The status becomes `Halted(r)` and nothing else changes: no register, byte, CSR entry, pc or parameter (R226, R230). -/
structure HaltsOnly (s t : State) (r : HaltReason) : Prop where
  status : t.status = .halted r
  regs : SameRegs s t
  pc : t.pc = s.pc
  bytes : SameBytes s t
  csr : SameCsr s t
  params : t.params = s.params

/-- Entry `a` of the CSR bank takes the value `u` and nothing else changes (R35 to R38). -/
structure CsrWritesOnly (s t : State) (a : CsrIdx) (u : Word) : Prop where
  entry : t.csrEntry a = u
  otherEntries : ∀ d, d ≠ a → t.csrEntry d = s.csrEntry d
  regs : SameRegs s t
  pc : t.pc = s.pc
  bytes : SameBytes s t
  status : t.status = s.status
  params : t.params = s.params

/-! ### The laws of an instruction: its completion, its result and its frame in one -/

/-- `exec i s` answers a next state in which only `rd` (with `v`) and the pc have changed. -/
def WritesReg (s : State) (i : Instr) (rd : RegIdx) (v : Word) : Prop := ∃ t, exec i s = .next t ∧ RegisterOnly s t rd v

/-- `exec i s` answers a next state in which only the pc has changed, to `npc`. -/
def GoesTo (s : State) (i : Instr) (npc : Word) : Prop := ∃ t, exec i s = .next t ∧ JumpsOnly s t npc

/-- `exec i s` answers a next state in which only the status has changed, to `Halted(r)`. -/
def HaltsWith (s : State) (i : Instr) (r : HaltReason) : Prop := ∃ t, exec i s = .next t ∧ HaltsOnly s t r

/-- The number of a byte sequence, the first byte the least significant (R52). -/
def leNat (bs : List Byte) : Nat :=
  match bs with
  | [] => 0
  | b :: rest => b.toNat + 256 * leNat rest

/-- The `n` bytes from address `a`. -/
def bytesFrom (s : State) (a n : Nat) : List Byte := (List.range n).map fun k => s.byteAt (a + k)

/-- The `k`-th address of a fetch, `pc + k` modulo 2^64 (R110). -/
def fetchAddr (s : State) (k : Nat) : Word := s.pc + BitVec.ofNat 64 k

/-- The four bytes at the pc are in the window. -/
def FetchInWindow (s : State) : Prop := ∀ k, k < 4 → inWindow s.params (fetchAddr s k).toNat 1 = true

/-- The four bytes at the pc, in address order. -/
def fetchBytes (s : State) : List Byte := (List.range 4).map fun k => s.byteAt (fetchAddr s k).toNat

/-- A signed load of `n` bytes at `a`: the two's-complement reading of the little-endian bytes, or LoadAccessFault(a)
(R57, R142). -/
structure SignedLoadLaw (s : State) (i : Instr) (rd : RegIdx) (a : Word) (n : Nat) : Prop where
  loads : inWindow s.params a.toNat n = true →
    ∃ v : Word, v.toInt = Int.bmod (leNat (bytesFrom s a.toNat n)) (2 ^ (8 * n)) ∧ WritesReg s i rd v
  faults : inWindow s.params a.toNat n = false → HaltsWith s i (.trap (.loadAccessFault a))

/-- An unsigned load of `n` bytes at `a`: the little-endian number of the bytes, or LoadAccessFault(a) (R58, R142). -/
structure UnsignedLoadLaw (s : State) (i : Instr) (rd : RegIdx) (a : Word) (n : Nat) : Prop where
  loads : inWindow s.params a.toNat n = true →
    ∃ v : Word, v.toNat = leNat (bytesFrom s a.toNat n) ∧ WritesReg s i rd v
  faults : inWindow s.params a.toNat n = false → HaltsWith s i (.trap (.loadAccessFault a))

/-- A store of the low `n` bytes of `v` at `a`, or StoreAMOAccessFault(a) with no byte written (R59, R152). -/
structure StoreLaw (s : State) (i : Instr) (a : Word) (n : Nat) (v : Word) : Prop where
  stores : inWindow s.params a.toNat n = true → ∃ t, exec i s = .next t ∧ StoresOnly s t a.toNat n v
  faults : inWindow s.params a.toNat n = false → HaltsWith s i (.trap (.storeAMOAccessFault a))

/-- A branch under a condition (R131): taken to an aligned target, taken to a misaligned one, not taken. -/
structure BranchLaw (s : State) (i : Instr) (imm : BitVec 13) (cond : Prop) : Prop where
  taken : ∀ target : Word, (target.toNat : Int) = (s.pc.toNat + imm.toInt) % 2 ^ 64 → cond → target.toNat % 4 = 0 →
    GoesTo s i target
  misaligned : ∀ target : Word, (target.toNat : Int) = (s.pc.toNat + imm.toInt) % 2 ^ 64 → cond → target.toNat % 4 ≠ 0 →
    HaltsWith s i (.trap (.instructionAddressMisaligned target))
  notTaken : ∀ npc : Word, npc.toNat = (s.pc.toNat + 4) % 2 ^ 64 → ¬ cond → GoesTo s i npc

/-! ### What an instruction writes (R118) -/

/-- The destination register of an instruction: none for a branch or a store (R118). -/
def destination (i : Instr) : Option RegIdx :=
  match i with
  | .beq _ _ _ => none
  | .bne _ _ _ => none
  | .blt _ _ _ => none
  | .bge _ _ _ => none
  | .bltu _ _ _ => none
  | .bgeu _ _ _ => none
  | .lb rd _ _ => some rd
  | .lh rd _ _ => some rd
  | .lw rd _ _ => some rd
  | .ld rd _ _ => some rd
  | .lbu rd _ _ => some rd
  | .lhu rd _ _ => some rd
  | .lwu rd _ _ => some rd
  | .sb _ _ _ => none
  | .sh _ _ _ => none
  | .sw _ _ _ => none
  | .sd _ _ _ => none
  | .add rd _ _ => some rd
  | .sub rd _ _ => some rd
  | .sll rd _ _ => some rd
  | .slt rd _ _ => some rd
  | .sltu rd _ _ => some rd
  | .xor rd _ _ => some rd
  | .srl rd _ _ => some rd
  | .sra rd _ _ => some rd
  | .or rd _ _ => some rd
  | .and rd _ _ => some rd
  | .addw rd _ _ => some rd
  | .subw rd _ _ => some rd
  | .sllw rd _ _ => some rd
  | .srlw rd _ _ => some rd
  | .sraw rd _ _ => some rd
  | .addi rd _ _ => some rd
  | .slti rd _ _ => some rd
  | .sltiu rd _ _ => some rd
  | .xori rd _ _ => some rd
  | .ori rd _ _ => some rd
  | .andi rd _ _ => some rd
  | .slli rd _ _ => some rd
  | .srli rd _ _ => some rd
  | .srai rd _ _ => some rd
  | .addiw rd _ _ => some rd
  | .slliw rd _ _ => some rd
  | .srliw rd _ _ => some rd
  | .sraiw rd _ _ => some rd

/-- The instruction is one of the four stores, the only ones that write the Memory (R118). -/
def isStore (i : Instr) : Bool :=
  match i with
  | .beq _ _ _ => false
  | .bne _ _ _ => false
  | .blt _ _ _ => false
  | .bge _ _ _ => false
  | .bltu _ _ _ => false
  | .bgeu _ _ _ => false
  | .lb _ _ _ => false
  | .lh _ _ _ => false
  | .lw _ _ _ => false
  | .ld _ _ _ => false
  | .lbu _ _ _ => false
  | .lhu _ _ _ => false
  | .lwu _ _ _ => false
  | .sb _ _ _ => true
  | .sh _ _ _ => true
  | .sw _ _ _ => true
  | .sd _ _ _ => true
  | .add _ _ _ => false
  | .sub _ _ _ => false
  | .sll _ _ _ => false
  | .slt _ _ _ => false
  | .sltu _ _ _ => false
  | .xor _ _ _ => false
  | .srl _ _ _ => false
  | .sra _ _ _ => false
  | .or _ _ _ => false
  | .and _ _ _ => false
  | .addw _ _ _ => false
  | .subw _ _ _ => false
  | .sllw _ _ _ => false
  | .srlw _ _ _ => false
  | .sraw _ _ _ => false
  | .addi _ _ _ => false
  | .slti _ _ _ => false
  | .sltiu _ _ _ => false
  | .xori _ _ _ => false
  | .ori _ _ _ => false
  | .andi _ _ _ => false
  | .slli _ _ _ => false
  | .srli _ _ _ => false
  | .srai _ _ _ => false
  | .addiw _ _ _ => false
  | .slliw _ _ _ => false
  | .srliw _ _ _ => false
  | .sraiw _ _ _ => false

/-- The instruction is one of the nine word forms (R188, R216). -/
def isWordForm (i : Instr) : Bool :=
  match i with
  | .beq _ _ _ => false
  | .bne _ _ _ => false
  | .blt _ _ _ => false
  | .bge _ _ _ => false
  | .bltu _ _ _ => false
  | .bgeu _ _ _ => false
  | .lb _ _ _ => false
  | .lh _ _ _ => false
  | .lw _ _ _ => false
  | .ld _ _ _ => false
  | .lbu _ _ _ => false
  | .lhu _ _ _ => false
  | .lwu _ _ _ => false
  | .sb _ _ _ => false
  | .sh _ _ _ => false
  | .sw _ _ _ => false
  | .sd _ _ _ => false
  | .add _ _ _ => false
  | .sub _ _ _ => false
  | .sll _ _ _ => false
  | .slt _ _ _ => false
  | .sltu _ _ _ => false
  | .xor _ _ _ => false
  | .srl _ _ _ => false
  | .sra _ _ _ => false
  | .or _ _ _ => false
  | .and _ _ _ => false
  | .addw _ _ _ => true
  | .subw _ _ _ => true
  | .sllw _ _ _ => true
  | .srlw _ _ _ => true
  | .sraw _ _ _ => true
  | .addi _ _ _ => false
  | .slti _ _ _ => false
  | .sltiu _ _ _ => false
  | .xori _ _ _ => false
  | .ori _ _ _ => false
  | .andi _ _ _ => false
  | .slli _ _ _ => false
  | .srli _ _ _ => false
  | .srai _ _ _ => false
  | .addiw _ _ _ => true
  | .slliw _ _ _ => true
  | .srliw _ _ _ => true
  | .sraiw _ _ _ => true

/-! ### The invariant of the block -/

/-- The causes this hardware raises have the codes 0, 1, 2, 5 and 7 (R221, R223). -/
def raisedCode (n : Nat) : Prop := n = 0 ∨ n = 1 ∨ n = 2 ∨ n = 5 ∨ n = 7

/-- What holds of a constructed block at all times. -/
structure State.Inv (s : State) : Prop where
  /-- The parameters meet the constraints of R8. -/
  params : s.params.valid
  /-- The pc is a multiple of 4 (R24). -/
  pcAligned : s.pc.toNat % 4 = 0
  /-- The storage under x0 holds 0 (R21). -/
  x0Zero : s.regs[0] = 0#64
  /-- The Memory is in canonical form. -/
  memWf : Memory.wf s.mem = true
  /-- Only bytes of the window are backed (R51). -/
  memInWindow : ∀ c ∈ s.mem, inWindow s.params c.1 1 = true
  /-- The CSR bank is in canonical form. -/
  csrWf : CsrBank.wf s.csr = true
  /-- The bank has 4096 entries (R27). -/
  csrInBank : ∀ c ∈ s.csr, c.1 < 4096
  /-- The storage under the three views holds 0 for the whole run (R30). -/
  viewsUnused : s.csrEntry csrSstatus = 0#64 ∧ s.csrEntry csrSie = 0#64 ∧ s.csrEntry csrSip = 0#64
  /-- A ZeroWord halt carries the pc (R111). -/
  zeroWordPc : ∀ a, s.status = .halted (.zeroWord a) → a = s.pc
  /-- A Trap halt carries one of the five raised causes (R221, R223). -/
  trapCause : ∀ e, s.status = .halted (.trap e) → raisedCode (excCode e)

end Sys2Proof.Machine
end

