-- ==== Sys2Proof/Certificates/Slice0/Obligations.lean ====
section
/-! DEFINITION. The statements for the provers. Each says what an instruction or the machine does, through the reads of the
state and the laws of Safety.lean. A statement that rests on a choice of the spec marked as a decision, or on an entry of the
model's log, says so in its docstring. -/

open Sys2Proof Sys2Proof.Machine

/-- O1. beq x1,x2,8; bne x1,x2,-4; lb x5,0(x6); sb x5,0(x6); add x31,x30,x29; addw x3,x1,x2; addi x29,x0,-5; srai x3,x1,60;
addiw x3,x1,1 and sraiw x3,x1,31 decode from the words the spec prints for them. Rests on: 30_encoding.md R80 to R97; the
worked examples of R132, R143, R153, R162, R182, R192, R200, R212, R215. -/
def Obligations.SampleWordOfEachClassDecodes : Prop :=
  decodeWord 0x00208463#32 = .ok (.beq 1#5 2#5 8#13) ∧
  decodeWord 0xFE209EE3#32 = .ok (.bne 1#5 2#5 (-4#13)) ∧
  decodeWord 0x00030283#32 = .ok (.lb 5#5 6#5 0#12) ∧
  decodeWord 0x00530023#32 = .ok (.sb 6#5 5#5 0#12) ∧
  decodeWord 0x01DF0FB3#32 = .ok (.add 31#5 30#5 29#5) ∧
  decodeWord 0x002081BB#32 = .ok (.addw 3#5 1#5 2#5) ∧
  decodeWord 0xFFB00E93#32 = .ok (.addi 29#5 0#5 (-5#12)) ∧
  decodeWord 0x43C0D193#32 = .ok (.srai 3#5 1#5 60#6) ∧
  decodeWord 0x0010819B#32 = .ok (.addiw 3#5 1#5 1#12) ∧
  decodeWord 0x41F0D19B#32 = .ok (.sraiw 3#5 1#5 31#5)

/-- O2. For every well-formed instruction i and every byte sequence rest, decoding the little-endian bytes of encode i
followed by rest gives i and rest. The 13-bit branch offset with its evenness check is the model's form (log 13). Rests
on: 30_encoding.md R81 to R97; 20_memory.md R52. -/
def Obligations.DecodeOfEncodeIsTheInstruction : Prop :=
  ∀ (i : Instr) (rest : List Byte), i.wellFormed = true → decodeBytes (wordBytes (encode i) ++ rest) = .ok (i, rest)

/-- O3. If decodeWord w is i then i is well-formed and encode i is w: no bit of a decoded word is dropped, and each
instruction has one word. Rests on: 30_encoding.md R81 to R97. -/
def Obligations.EncodeOfDecodeIsTheWord : Prop :=
  ∀ (w : InstWord) (i : Instr), decodeWord w = .ok i → i.wellFormed = true ∧ encode i = w

/-- O4. If a word decodes to i then the word under the mask of i's row is that row's match, and if a word under the mask of
any row is that row's match then it decodes to an instruction of that row. Rests on: 30_encoding.md R87 to R97;
opcode_table.json. -/
def Obligations.DecodeAgreesWithTheOpcodeTable : Prop :=
  ∀ w : InstWord,
    (∀ i, decodeWord w = .ok i → w &&& (opcodeRow i).1 = (opcodeRow i).2) ∧
    (∀ j, w &&& (opcodeRow j).1 = (opcodeRow j).2 → ∃ i, decodeWord w = .ok i ∧ opcodeRow i = opcodeRow j)

/-- O5. If the block is running, its four fetch bytes are in the window and decode to i, then i is well-formed and step s is
exec i s. exec itself moves the pc: step adds nothing around it. Rests on: 40_engine_cycle.md R110, R112, R115. -/
def Obligations.StepRunsTheDecodedInstruction : Prop :=
  ∀ (s : State) (i : Instr), s.status = .running → FetchInWindow s → decodeBytes (fetchBytes s) = .ok (i, []) →
    i.wellFormed = true ∧ step s = exec i s

/-- O6. If the block is running, its four fetch bytes are in the window and all 0, then step answers a next state whose status
is Halted(ZeroWord(pc)), with registers, bytes, CSR entries, pc and parameters as before (the spec's decision D22). Rests
on: 40_engine_cycle.md R111; 92_eei_decisions.md D22. -/
def Obligations.StepOnTheZeroWordHalts : Prop :=
  ∀ s : State, s.status = .running → FetchInWindow s → leNat (fetchBytes s) = 0 →
    ∃ t, step s = .next t ∧ HaltsOnly s t (.zeroWord s.pc)

/-- O7. If the block is running, its four fetch bytes are in the window and make a word w other than 0 that matches no row of
the opcode table, then step answers a next state whose status is Halted(Trap(IllegalInstruction(v))) with v the number of
w, and nothing else changes (payload: the spec's decision D19). Rests on: 30_encoding.md R87, R96; 92_eei_decisions.md
D19. -/
def Obligations.StepOnAnUnmappedWordTraps : Prop :=
  ∀ (s : State) (w : InstWord), s.status = .running → FetchInWindow s → w.toNat = leNat (fetchBytes s) → w ≠ 0#32 →
    (∀ j, w &&& (opcodeRow j).1 ≠ (opcodeRow j).2) →
    ∃ t v, step s = .next t ∧ v.toNat = w.toNat ∧ HaltsOnly s t (.trap (.illegalInstruction v))

/-- O8. If the bytes at pc, pc+1, pc+2, pc+3 (modulo 2^64) are in the window the fetch gives the word whose number is theirs,
little-endian. If the first k of them are in the window and the k-th is not, the fetch raises InstructionAccessFault(pc +
k). If MEM_BASE, MEM_SIZE and the pc are multiples of 4 (and the parameters valid) a fetch that faults carries the pc.
Rests on: R110. -/
def Obligations.FetchReadsFourBytesOrFaultsAtTheFirstOutside : Prop :=
  ∀ s : State,
    (FetchInWindow s → ∃ w, fetchWord s = .ok w ∧ w.toNat = leNat (fetchBytes s)) ∧
    (∀ k, k < 4 → (∀ j, j < k → inWindow s.params (fetchAddr s j).toNat 1 = true) →
      inWindow s.params (fetchAddr s k).toNat 1 = false →
      fetchWord s = .error (.instructionAccessFault (fetchAddr s k))) ∧
    (∀ e, s.params.valid → s.params.memSize % 4 = 0 → s.pc.toNat % 4 = 0 → fetchWord s = .error e →
      e = .instructionAccessFault s.pc)

/-- O9. If the block is running and the byte at the pc is not in the window, step answers a next state whose status is
Halted(Trap(InstructionAccessFault(pc))), and nothing else changes. The same at every byte of the fetch: for k below 4, if
the first k bytes are in the window and the byte at pc + k modulo 2^64 is not, the status is
Halted(Trap(InstructionAccessFault(pc + k))), and nothing else changes. An out-of-window pc as a fetch fault is the spec's
decision D27, and the halt as a next state the model's reading of R230 (log 4). Rests on: 40_engine_cycle.md R110, R116;
60_exceptions.md R225, R230; 92_eei_decisions.md D27; log 4. -/
def Obligations.PcOutOfWindowHaltsTheRun : Prop :=
  (∀ s : State, s.status = .running → inWindow s.params s.pc.toNat 1 = false →
    ∃ t, step s = .next t ∧ HaltsOnly s t (.trap (.instructionAccessFault s.pc))) ∧
  (∀ (s : State) (k : Nat), s.status = .running → k < 4 →
    (∀ j, j < k → inWindow s.params (fetchAddr s j).toNat 1 = true) → inWindow s.params (fetchAddr s k).toNat 1 = false →
    ∃ t, step s = .next t ∧ HaltsOnly s t (.trap (.instructionAccessFault (fetchAddr s k))))

/-- O10. Every constructed block is Running. If the status of s is Halted(r), running the machine any number k of steps from s
answers s itself. Rests on: R40. -/
def Obligations.HaltedNeverChanges : Prop :=
  (∀ (p : Params) (initX : Vector Word 31) (image : List Byte) (s : State),
    construct p initX image = some s → s.status = .running) ∧
  (∀ (s : State) (r : HaltReason), s.status = .halted r → ∀ k, Host.Core.run Sys2Proof.core k s = .next s)

/-- O11. For every state, step answers a next state, and for every instruction and state, exec does. That an exception is a
next state whose status is Halted is the model's reading of R230 (log 4). Rests on: 40_engine_cycle.md R115;
60_exceptions.md R230. -/
def Obligations.StepAlwaysAnswersANextState : Prop :=
  (∀ s : State, ∃ t, step s = .next t) ∧ (∀ (i : Instr) (s : State), ∃ t, exec i s = .next t)

/-- O12. Taking exception e answers the block with status Halted(Trap(e)) and nothing else changed. If s is running, step s
answers t and the status of t is Halted(r), then t is s with its status replaced (no CSR is written, the pc is not
redirected, no register and no byte changes, whether r is an exception or the zero word), and the host's step and status
operations reply with r. That a faulting instruction and the zero word leave the pc and the registers as they are is the
spec's decisions D21 and D22. That the halt is a next state and that step's reply is read from it is the model's reading
of R111, R115 and R230 (log 4), and the host operations as functions between steps are the model's choice (log 12). Rests
on: 40_engine_cycle.md R111, R114, R115; 60_exceptions.md R230; 92_eei_decisions.md D21, D22; log 4; log 12. -/
def Obligations.EveryHaltIsPrecise : Prop :=
  (∀ (s : State) (e : Exn), takeException s e = .next { s with status := .halted (.trap e) }) ∧
  (∀ (s t : State) (r : HaltReason), s.status = .running → step s = .next t → t.status = .halted r →
    t = { s with status := .halted r } ∧ hostReply .step s = .step (.halts r) ∧ hostReply .status t = .status (.halted r))

/-- O13. If s is running, step s answers t and the status of t is Halted(Trap(e)), then e is an instruction address
misaligned, instruction access fault, illegal instruction, load access fault or store/AMO access fault, and is_fatal(e) is
true. (The misaligned-target cause rests on the spec's decision D11.) Rests on: 60_exceptions.md R221, R223;
92_eei_decisions.md D11, D12. -/
def Obligations.OnlyFiveCausesAreRaised : Prop :=
  ∀ (s t : State) (e : Exn), s.status = .running → step s = .next t → t.status = .halted (.trap e) →
    excIsFatal e = true ∧
      ((∃ v, e = .instructionAddressMisaligned v) ∨ (∃ v, e = .instructionAccessFault v) ∨
       (∃ v, e = .illegalInstruction v) ∨ (∃ v, e = .loadAccessFault v) ∨ (∃ v, e = .storeAMOAccessFault v))

/-- O14. Every record has one of the codes 0,1,2,3,4,5,6,7,8,9,11,12,13,15, paired with the causes in order, so none is 10, 14
or above 15. is_fatal is true exactly for the codes 0, 1, 2, 5, 6 and 7. Fatal or not, taking an exception halts the run
and changes nothing else. value gives the payload. The pairing of each cause with its code is the spec's own inference,
derived from the order of its two lists (R221, N7), and the halt as a next state is the model's reading of R230 (log 4).
Rests on: 60_exceptions.md R220, R221, R222, R224, R230; 91_not_in_source.md N7; 92_eei_decisions.md D21; log 4. -/
def Obligations.ExceptionCodesAndFatalFlag : Prop :=
  (∀ v : Word, [Exn.instructionAddressMisaligned v, .instructionAccessFault v, .illegalInstruction v, .breakpoint v,
      .loadAddressMisaligned v, .loadAccessFault v, .storeAMOAddressMisaligned v, .storeAMOAccessFault v,
      .environmentCallFromUMode v, .environmentCallFromSMode v, .environmentCallFromMMode v, .instructionPageFault v,
      .loadPageFault v, .storeAMOPageFault v].map (fun e => (excCode e, excValue e)) =
    [0, 1, 2, 3, 4, 5, 6, 7, 8, 9, 11, 12, 13, 15].map fun n => (n, v)) ∧
  (∀ e : Exn, excCode e ≠ 10 ∧ excCode e ≠ 14 ∧ excCode e ≤ 15) ∧
  (∀ e : Exn, excIsFatal e = true ↔ excCode e ∈ [0, 1, 2, 5, 6, 7]) ∧
  (∀ (s : State) (e : Exn), ∃ t, takeException s e = .next t ∧ HaltsOnly s t (.trap e))

/-- O15. If step s answers t, every entry of the CSR bank and the parameters are those of s. Rests on: 10_state.md R25, R39;
40_engine_cycle.md R118; 00_scope.md R8. -/
def Obligations.StepKeepsCsrAndParameters : Prop :=
  ∀ s t : State, step s = .next t → t.csr = s.csr ∧ t.params = s.params

/-- O16. For every state whose pc is a multiple of 4, if step answers t, the pc of t is a multiple of 4 (the spec's decision
D11 makes a misaligned target an exception). Rests on: 10_state.md R24; 41_branch.md R131; 92_eei_decisions.md D11. -/
def Obligations.PcStaysAMultipleOfFour : Prop :=
  ∀ s t : State, s.pc.toNat % 4 = 0 → step s = .next t → t.pc.toNat % 4 = 0

/-- O17. State.reset meets State.Inv. Its parameters and its registers are the spec's reference values (log 1, log 3). The
clauses of State.Inv on the canonical form of the Memory (log 6) and of the CSR bank (log 8) and on the stored 0 under x0
(log 11) are the model's form, its own choice and no rule of the spec. Rests on: 70_reset_and_hazards.md R250 to R256;
00_scope.md R8; log 1; log 3; log 6; log 8; log 11. -/
def Obligations.InvariantHoldsAtReset : Prop :=
  State.reset.Inv

/-- O18. If s meets State.Inv and step s answers t then t meets it: valid parameters, an aligned pc, 0 under x0, a canonical
Memory inside the window, a canonical CSR bank of 4096 entries with 0 under the views, a ZeroWord halt that carries the
pc, and a Trap halt that carries one of the raised causes. The clauses on the canonical form of the Memory (log 6) and of
the CSR bank (log 8) and on the stored 0 under x0 (log 11) are the model's choice and follow from no rule of the spec. The
aligned pc rests on the spec's decision D11. Rests on: 00_scope.md R8; 10_state.md R21, R24, R30; 20_memory.md R51;
40_engine_cycle.md R111; 60_exceptions.md R223; 92_eei_decisions.md D11; log 6; log 8; log 11. -/
def Obligations.StepKeepsTheInvariant : Prop :=
  ∀ s t : State, s.Inv → step s = .next t → t.Inv

/-- O19. For valid parameters, any INIT_X and any image that fits, every sequence of host operations (steps, CSR stores and
loads, status, debug reads) on the constructed block leaves a state that meets State.Inv. The host operations as functions
between steps are the model's form (log 12), and so are the invariant's clauses on the canonical Memory (log 6), the
canonical CSR bank (log 8) and the stored 0 under x0 (log 11). Rests on: 00_scope.md R9; 70_reset_and_hazards.md R250 to
R259; log 6; log 8; log 11; log 12. -/
def Obligations.EveryHostRunKeepsTheInvariant : Prop :=
  ∀ (p : Params) (initX : Vector Word 31) (image : List Byte) (s : State) (ops : List HostOp), p.valid →
    construct p initX image = some s → (hostRun ops s).Inv

/-- O20. With valid parameters: an image longer than MEM_SIZE gives no block. Otherwise the block has x0 = 0, x1 to x31 =
INIT_X, pc = MEM_BASE, the image's bytes from MEM_BASE on and 0 in the rest of the window, every CSR entry and every CSR
read 0, status Running, and the parameters given (the spec's decisions D14 to D18). Rests on: 70_reset_and_hazards.md R250
to R256; 92_eei_decisions.md D14 to D18. -/
def Obligations.ConstructBuildsTheBlock : Prop :=
  ∀ (p : Params) (initX : Vector Word 31) (image : List Byte), p.valid →
    (p.memSize < image.length → construct p initX image = none) ∧
    (image.length ≤ p.memSize → ∃ s, construct p initX image = some s ∧
      s.reg 0#5 = 0#64 ∧ (∀ i : Fin 31, s.reg (BitVec.ofNat 5 (i.val + 1)) = initX[i]) ∧ s.pc = p.memBase ∧
      (∀ k : Fin image.length, s.byteAt (p.memBase.toNat + k.val) = image[k]) ∧
      (∀ k, image.length ≤ k → k < p.memSize → s.byteAt (p.memBase.toNat + k) = 0#8) ∧
      (∀ a, s.csrEntry a = 0#64 ∧ csrRead s a = 0#64) ∧ s.status = .running ∧ s.params = p)

/-- O21. construct of the reference parameters, the all-zero INIT_X and the empty image is State.reset, so its pc is
0x80000000, every register, byte and CSR entry reads 0 and the status is Running. The parameter and register values are
the model's choice among those the spec allows (log 1, log 3). Rests on: 70_reset_and_hazards.md R250 to R256; 00_scope.md
R8; log 1, log 3, log 7. -/
def Obligations.ResetIsTheReferenceConstruction : Prop :=
  construct Params.reference initXReference [] = some State.reset ∧
  State.reset.pc = 0x80000000#64 ∧ (∀ r, State.reset.reg r = 0#64) ∧ (∀ a, State.reset.byteAt a = 0#8) ∧
  (∀ c, State.reset.csrEntry c = 0#64) ∧ State.reset.status = .running

/-- O22. If the four fetch addresses of s are in the window, its Memory is canonical and decodeTableWord n w is i, then the
next step of s.withFetchWord n w is exec of i at that state, and that state differs from s in at most the four bytes and
the status, which is Running: every other byte, every register, the pc, every CSR entry and the parameters are those of s.
A statement about the model's own interface (log 7). Rests on: 40_engine_cycle.md R110, R115; log 7. -/
def Obligations.WithFetchWordRunsThatInstruction : Prop :=
  ∀ (s : State) (n w : Nat) (i : Instr), FetchInWindow s → Memory.wf s.mem = true → decodeTableWord n w = some i →
    step (s.withFetchWord n w) = exec i (s.withFetchWord n w) ∧
    (∀ a, (∀ k, k < 4 → a ≠ (fetchAddr s k).toNat) → (s.withFetchWord n w).byteAt a = s.byteAt a) ∧
    SameRegs s (s.withFetchWord n w) ∧ (s.withFetchWord n w).pc = s.pc ∧ SameCsr s (s.withFetchWord n w) ∧
    (s.withFetchWord n w).status = .running ∧ (s.withFetchWord n w).params = s.params

/-- O23. beq (bne) is the B-type word with funct3 000 (001). On equal (unequal) registers it goes to pc + imm modulo 2^64 if
that is a multiple of 4 and otherwise halts with InstructionAddressMisaligned of it, changing nothing else. Otherwise it
goes to pc + 4. Registers, bytes, CSRs, status and parameters are unchanged. The trap is the spec's decision D11. The
encoding values are the general-knowledge ones of the spec (log 18). Rests on: 41_branch.md R131, R132, R133;
30_encoding.md R84, R89; 92_eei_decisions.md D11. -/
def Obligations.BranchesOnEqualityCompleteOrTrap : Prop :=
  ∀ (s : State) (rs1 rs2 : RegIdx) (imm : BitVec 13),
    (evenOffset imm = true → decodeWord (imm.extractLsb' 12 1 ++ imm.extractLsb' 5 6 ++ rs2 ++ rs1 ++ 0b000#3 ++
      imm.extractLsb' 1 4 ++ imm.extractLsb' 11 1 ++ 0b1100011#7) = .ok (.beq rs1 rs2 imm)) ∧
    BranchLaw s (.beq rs1 rs2 imm) imm (s.reg rs1 = s.reg rs2) ∧
    (evenOffset imm = true → decodeWord (imm.extractLsb' 12 1 ++ imm.extractLsb' 5 6 ++ rs2 ++ rs1 ++ 0b001#3 ++
      imm.extractLsb' 1 4 ++ imm.extractLsb' 11 1 ++ 0b1100011#7) = .ok (.bne rs1 rs2 imm)) ∧
    BranchLaw s (.bne rs1 rs2 imm) imm (s.reg rs1 ≠ s.reg rs2)

/-- O24. As for beq and bne, with funct3 100 and 101 and the two's-complement conditions s(x[rs1]) < s(x[rs2]) and its
negation. The trap is the spec's decision D11. The encoding values are the general-knowledge ones of the spec (log 18).
Rests on: 41_branch.md R131, R134, R135; 30_encoding.md R84, R89; 92_eei_decisions.md D11. -/
def Obligations.SignedBranchesCompleteOrTrap : Prop :=
  ∀ (s : State) (rs1 rs2 : RegIdx) (imm : BitVec 13),
    (evenOffset imm = true → decodeWord (imm.extractLsb' 12 1 ++ imm.extractLsb' 5 6 ++ rs2 ++ rs1 ++ 0b100#3 ++
      imm.extractLsb' 1 4 ++ imm.extractLsb' 11 1 ++ 0b1100011#7) = .ok (.blt rs1 rs2 imm)) ∧
    BranchLaw s (.blt rs1 rs2 imm) imm ((s.reg rs1).toInt < (s.reg rs2).toInt) ∧
    (evenOffset imm = true → decodeWord (imm.extractLsb' 12 1 ++ imm.extractLsb' 5 6 ++ rs2 ++ rs1 ++ 0b101#3 ++
      imm.extractLsb' 1 4 ++ imm.extractLsb' 11 1 ++ 0b1100011#7) = .ok (.bge rs1 rs2 imm)) ∧
    BranchLaw s (.bge rs1 rs2 imm) imm ((s.reg rs2).toInt ≤ (s.reg rs1).toInt)

/-- O25. As for beq and bne, with funct3 110 and 111 and the unsigned conditions u(x[rs1]) < u(x[rs2]) and its negation. The
trap is the spec's decision D11. The encoding values are the general-knowledge ones of the spec (log 18). Rests on:
41_branch.md R131, R136, R137; 30_encoding.md R84, R89; 92_eei_decisions.md D11. -/
def Obligations.UnsignedBranchesCompleteOrTrap : Prop :=
  ∀ (s : State) (rs1 rs2 : RegIdx) (imm : BitVec 13),
    (evenOffset imm = true → decodeWord (imm.extractLsb' 12 1 ++ imm.extractLsb' 5 6 ++ rs2 ++ rs1 ++ 0b110#3 ++
      imm.extractLsb' 1 4 ++ imm.extractLsb' 11 1 ++ 0b1100011#7) = .ok (.bltu rs1 rs2 imm)) ∧
    BranchLaw s (.bltu rs1 rs2 imm) imm ((s.reg rs1).toNat < (s.reg rs2).toNat) ∧
    (evenOffset imm = true → decodeWord (imm.extractLsb' 12 1 ++ imm.extractLsb' 5 6 ++ rs2 ++ rs1 ++ 0b111#3 ++
      imm.extractLsb' 1 4 ++ imm.extractLsb' 11 1 ++ 0b1100011#7) = .ok (.bgeu rs1 rs2 imm)) ∧
    BranchLaw s (.bgeu rs1 rs2 imm) imm ((s.reg rs2).toNat ≤ (s.reg rs1).toNat)

/-- O26. effAddr s rs1 imm is the number u(x[rs1]) + imm modulo 2^64, with imm read as a signed 12-bit number. The wrap is the
spec's decision D13. Rests on: 42_load.md R141; 43_store.md R152; 92_eei_decisions.md D13. -/
def Obligations.EffectiveAddressIsBasePlusOffset : Prop :=
  ∀ (s : State) (rs1 : RegIdx) (imm : BitVec 12),
    ((effAddr s rs1 imm).toNat : Int) = ((s.reg rs1).toNat + imm.toInt) % 2 ^ 64

/-- O27. Each is the I-type word of opcode 0x03 with its funct3. With the whole span at x[rs1] + imm in the window (any
alignment) the instruction completes: rd takes the two's-complement value of the 1, 2, 4 or 8 little-endian bytes
(discarded for x0), the pc goes to pc + 4, nothing else changes. With any byte outside, it halts with LoadAccessFault of
that address and changes nothing else. The encoding values are the general-knowledge ones of the spec (log 18). Rests on:
R143; R144; R145; R146. -/
def Obligations.SignedLoadsCompleteOrFault : Prop :=
  ∀ (s : State) (rd rs1 : RegIdx) (imm : BitVec 12),
    decodeWord (imm ++ rs1 ++ 0b000#3 ++ rd ++ 0b0000011#7) = .ok (.lb rd rs1 imm) ∧
    SignedLoadLaw s (.lb rd rs1 imm) rd (effAddr s rs1 imm) 1 ∧
    decodeWord (imm ++ rs1 ++ 0b001#3 ++ rd ++ 0b0000011#7) = .ok (.lh rd rs1 imm) ∧
    SignedLoadLaw s (.lh rd rs1 imm) rd (effAddr s rs1 imm) 2 ∧
    decodeWord (imm ++ rs1 ++ 0b010#3 ++ rd ++ 0b0000011#7) = .ok (.lw rd rs1 imm) ∧
    SignedLoadLaw s (.lw rd rs1 imm) rd (effAddr s rs1 imm) 4 ∧
    decodeWord (imm ++ rs1 ++ 0b011#3 ++ rd ++ 0b0000011#7) = .ok (.ld rd rs1 imm) ∧
    SignedLoadLaw s (.ld rd rs1 imm) rd (effAddr s rs1 imm) 8

/-- O28. As for the signed loads, with funct3 100, 101, 110 and rd taking the unsigned number of the 1, 2 or 4 little-endian
bytes. The encoding values are the general-knowledge ones of the spec (log 18). Rests on: R147; R148; R149. -/
def Obligations.UnsignedLoadsCompleteOrFault : Prop :=
  ∀ (s : State) (rd rs1 : RegIdx) (imm : BitVec 12),
    decodeWord (imm ++ rs1 ++ 0b100#3 ++ rd ++ 0b0000011#7) = .ok (.lbu rd rs1 imm) ∧
    UnsignedLoadLaw s (.lbu rd rs1 imm) rd (effAddr s rs1 imm) 1 ∧
    decodeWord (imm ++ rs1 ++ 0b101#3 ++ rd ++ 0b0000011#7) = .ok (.lhu rd rs1 imm) ∧
    UnsignedLoadLaw s (.lhu rd rs1 imm) rd (effAddr s rs1 imm) 2 ∧
    decodeWord (imm ++ rs1 ++ 0b110#3 ++ rd ++ 0b0000011#7) = .ok (.lwu rd rs1 imm) ∧
    UnsignedLoadLaw s (.lwu rd rs1 imm) rd (effAddr s rs1 imm) 4

/-- O29. Each is the S-type word of opcode 0x23 with its funct3. On a canonical Memory, with the whole span at x[rs1] + imm in
the window (any alignment) the instruction completes: byte k of the span takes bits 8k+7..8k of x[rs2], every other byte
reads as before, the pc goes to pc + 4, no register, CSR, status or parameter changes. With any byte outside, it halts
with StoreAMOAccessFault of that address and writes nothing. The encoding values are the general-knowledge ones of the
spec (log 18). Rests on: R153; R154; R155; R156. -/
def Obligations.StoresCompleteOrFault : Prop :=
  ∀ (s : State) (rs1 rs2 : RegIdx) (imm : BitVec 12), Memory.wf s.mem = true →
    decodeWord (imm.extractLsb' 5 7 ++ rs2 ++ rs1 ++ 0b000#3 ++ imm.extractLsb' 0 5 ++ 0b0100011#7) =
      .ok (.sb rs1 rs2 imm) ∧
    StoreLaw s (.sb rs1 rs2 imm) (effAddr s rs1 imm) 1 (s.reg rs2) ∧
    decodeWord (imm.extractLsb' 5 7 ++ rs2 ++ rs1 ++ 0b001#3 ++ imm.extractLsb' 0 5 ++ 0b0100011#7) =
      .ok (.sh rs1 rs2 imm) ∧
    StoreLaw s (.sh rs1 rs2 imm) (effAddr s rs1 imm) 2 (s.reg rs2) ∧
    decodeWord (imm.extractLsb' 5 7 ++ rs2 ++ rs1 ++ 0b010#3 ++ imm.extractLsb' 0 5 ++ 0b0100011#7) =
      .ok (.sw rs1 rs2 imm) ∧
    StoreLaw s (.sw rs1 rs2 imm) (effAddr s rs1 imm) 4 (s.reg rs2) ∧
    decodeWord (imm.extractLsb' 5 7 ++ rs2 ++ rs1 ++ 0b011#3 ++ imm.extractLsb' 0 5 ++ 0b0100011#7) =
      .ok (.sd rs1 rs2 imm) ∧
    StoreLaw s (.sd rs1 rs2 imm) (effAddr s rs1 imm) 8 (s.reg rs2)

/-- O30. On a canonical Memory, if Store(a, n, v) succeeds then LoadU(a, n) after it gives v modulo 2^8n and LoadS(a, n) gives
the two's-complement reading of those bits, at every width and alignment. Rests on: 20_memory.md R57 to R59, R64. -/
def Obligations.StoreThenLoadReturnsTheStoredBytes : Prop :=
  ∀ (s t : State) (a : Word) (n : Width) (v : Word), Memory.wf s.mem = true → busStore s a n v = .ok t →
    (∃ u, loadUnsigned t a n = .ok u ∧ u.toNat = v.toNat % 2 ^ (8 * widthBytes n)) ∧
    (∃ u, loadSigned t a n = .ok u ∧ u.toInt = Int.bmod v.toNat (2 ^ (8 * widthBytes n)))

/-- O31. With valid parameters and a canonical Memory, if Store(a, n, v) succeeds then for each k below n, FetchByte(a + k)
after it gives bits 8k+7..8k of v. Rests on: 20_memory.md R56, R59, R69. -/
def Obligations.StoreIsSeenByFetch : Prop :=
  ∀ (s t : State) (a : Word) (n : Width) (v : Word) (k : Nat), s.params.valid → Memory.wf s.mem = true →
    busStore s a n v = .ok t → k < widthBytes n →
    ∃ b, fetchByte t (a + BitVec.ofNat 64 k) = .ok b ∧ b.toNat = v.toNat / 256 ^ k % 256

/-- O32. For a span of n >= 1 bytes, InWindow(a, n) holds exactly when MEM_BASE <= a and a + n - 1 <= MEM_BASE + MEM_SIZE - 1
over the integers, and with valid parameters a span that passes 2^64 - 1 is out of the window (the spec's decision D13).
Rests on: 20_memory.md R53; 92_eei_decisions.md D13. -/
def Obligations.WindowCheckNeverWraps : Prop :=
  ∀ (p : Params) (a n : Nat), 1 ≤ n →
    (inWindow p a n = true ↔
      (p.memBase.toNat : Int) ≤ a ∧ (a : Int) + n - 1 ≤ (p.memBase.toNat : Int) + p.memSize - 1) ∧
    (p.valid → 2 ^ 64 < a + n → inWindow p a n = false)

/-- O33. The canonical form of the Memory's list is the model's representation (log 6): it makes equal contents equal data.
Rests on: 20_memory.md R50, R64; log 6. -/
def Obligations.CanonicalMemoriesThatReadAlikeAreEqual : Prop :=
  ∀ m m' : Memory, Memory.wf m = true → Memory.wf m' = true → (∀ a, sparseRead m a = sparseRead m' a) → m = m'

/-- O34. add (sub) is the R-type word of opcode 0x33, funct3 000, funct7 0000000 (0100000). It completes on every state: rd
takes x[rs1] + x[rs2] (minus) modulo 2^64, discarded for x0, both read before the write. The pc goes to pc + 4 and nothing
else changes. The encoding values are the general-knowledge ones of the spec (log 18). Rests on: R162; R163. -/
def Obligations.AddAndSubWrapModulo2To64 : Prop :=
  ∀ (s : State) (rd rs1 rs2 : RegIdx),
    decodeWord (0b0000000#7 ++ rs2 ++ rs1 ++ 0b000#3 ++ rd ++ 0b0110011#7) = .ok (.add rd rs1 rs2) ∧
    (∃ v : Word, v.toNat = ((s.reg rs1).toNat + (s.reg rs2).toNat) % 2 ^ 64 ∧
      WritesReg s (.add rd rs1 rs2) rd v) ∧
    decodeWord (0b0100000#7 ++ rs2 ++ rs1 ++ 0b000#3 ++ rd ++ 0b0110011#7) = .ok (.sub rd rs1 rs2) ∧
    (∃ v : Word, (v.toNat : Int) = ((s.reg rs1).toNat - (s.reg rs2).toNat : Int) % 2 ^ 64 ∧
      WritesReg s (.sub rd rs1 rs2) rd v)

/-- O35. With n = x[rs2] modulo 64: sll gives x[rs1] * 2^n modulo 2^64, srl gives u(x[rs1]) / 2^n rounded down, sra gives
s(x[rs1]) / 2^n rounded down. Each completes on every state. rd takes the result, the pc goes to pc + 4, nothing else
changes. The encoding values are the general-knowledge ones of the spec (log 18). Rests on: R164; R168; R169. -/
def Obligations.RegisterShiftsUseTheLowSixBits : Prop :=
  ∀ (s : State) (rd rs1 rs2 : RegIdx),
    decodeWord (0b0000000#7 ++ rs2 ++ rs1 ++ 0b001#3 ++ rd ++ 0b0110011#7) = .ok (.sll rd rs1 rs2) ∧
    (∃ v : Word, v.toNat = (s.reg rs1).toNat * 2 ^ ((s.reg rs2).toNat % 64) % 2 ^ 64 ∧
      WritesReg s (.sll rd rs1 rs2) rd v) ∧
    decodeWord (0b0000000#7 ++ rs2 ++ rs1 ++ 0b101#3 ++ rd ++ 0b0110011#7) = .ok (.srl rd rs1 rs2) ∧
    (∃ v : Word, v.toNat = (s.reg rs1).toNat / 2 ^ ((s.reg rs2).toNat % 64) ∧
      WritesReg s (.srl rd rs1 rs2) rd v) ∧
    decodeWord (0b0100000#7 ++ rs2 ++ rs1 ++ 0b101#3 ++ rd ++ 0b0110011#7) = .ok (.sra rd rs1 rs2) ∧
    (∃ v : Word, v.toInt = (s.reg rs1).toInt / 2 ^ ((s.reg rs2).toNat % 64) ∧
      WritesReg s (.sra rd rs1 rs2) rd v)

/-- O36. slt gives 1 if s(x[rs1]) < s(x[rs2]) and 0 otherwise, and sltu compares the unsigned readings. Each completes on
every state. rd takes the result, the pc goes to pc + 4, nothing else changes. The encoding values are the general-
knowledge ones of the spec (log 18). Rests on: R165; R166. -/
def Obligations.SetLessThanGivesOneOrZero : Prop :=
  ∀ (s : State) (rd rs1 rs2 : RegIdx),
    decodeWord (0b0000000#7 ++ rs2 ++ rs1 ++ 0b010#3 ++ rd ++ 0b0110011#7) = .ok (.slt rd rs1 rs2) ∧
    (∃ v : Word, v.toNat = (if (s.reg rs1).toInt < (s.reg rs2).toInt then 1 else 0) ∧
      WritesReg s (.slt rd rs1 rs2) rd v) ∧
    decodeWord (0b0000000#7 ++ rs2 ++ rs1 ++ 0b011#3 ++ rd ++ 0b0110011#7) = .ok (.sltu rd rs1 rs2) ∧
    (∃ v : Word, v.toNat = (if (s.reg rs1).toNat < (s.reg rs2).toNat then 1 else 0) ∧
      WritesReg s (.sltu rd rs1 rs2) rd v)

/-- O37. Bit k of the result is the exclusive or, or, and of bits k of x[rs1] and x[rs2]. Each completes on every state. rd
takes the result, the pc goes to pc + 4, nothing else changes. The encoding values are the general-knowledge ones of the
spec (log 18). Rests on: R167; R170; R171. -/
def Obligations.RegisterLogicIsBitwise : Prop :=
  ∀ (s : State) (rd rs1 rs2 : RegIdx),
    decodeWord (0b0000000#7 ++ rs2 ++ rs1 ++ 0b100#3 ++ rd ++ 0b0110011#7) = .ok (.xor rd rs1 rs2) ∧
    (∃ v : Word, (∀ k, v.getLsbD k = ((s.reg rs1).getLsbD k ^^ (s.reg rs2).getLsbD k)) ∧
      WritesReg s (.xor rd rs1 rs2) rd v) ∧
    decodeWord (0b0000000#7 ++ rs2 ++ rs1 ++ 0b110#3 ++ rd ++ 0b0110011#7) = .ok (.or rd rs1 rs2) ∧
    (∃ v : Word, (∀ k, v.getLsbD k = ((s.reg rs1).getLsbD k || (s.reg rs2).getLsbD k)) ∧
      WritesReg s (.or rd rs1 rs2) rd v) ∧
    decodeWord (0b0000000#7 ++ rs2 ++ rs1 ++ 0b111#3 ++ rd ++ 0b0110011#7) = .ok (.and rd rs1 rs2) ∧
    (∃ v : Word, (∀ k, v.getLsbD k = ((s.reg rs1).getLsbD k && (s.reg rs2).getLsbD k)) ∧
      WritesReg s (.and rd rs1 rs2) rd v)

/-- O38. rd takes the balanced residue modulo 2^32 of x[rs1] + x[rs2] (minus), that is sext_32 of the low 32 bits, so the
upper halves are ignored. Each completes on every state. The pc goes to pc + 4, nothing else changes. The encoding values
are the general-knowledge ones of the spec (log 18). Rests on: R182; R183. -/
def Obligations.AddwAndSubwWrapModulo2To32 : Prop :=
  ∀ (s : State) (rd rs1 rs2 : RegIdx),
    decodeWord (0b0000000#7 ++ rs2 ++ rs1 ++ 0b000#3 ++ rd ++ 0b0111011#7) = .ok (.addw rd rs1 rs2) ∧
    (∃ v : Word, v.toInt = Int.bmod ((s.reg rs1).toNat + (s.reg rs2).toNat) (2 ^ 32) ∧
      WritesReg s (.addw rd rs1 rs2) rd v) ∧
    decodeWord (0b0100000#7 ++ rs2 ++ rs1 ++ 0b000#3 ++ rd ++ 0b0111011#7) = .ok (.subw rd rs1 rs2) ∧
    (∃ v : Word, v.toInt = Int.bmod ((s.reg rs1).toNat - (s.reg rs2).toNat) (2 ^ 32) ∧
      WritesReg s (.subw rd rs1 rs2) rd v)

/-- O39. With n = x[rs2] modulo 64 below 32: sllw gives sext_32 of x[rs1] * 2^n, srlw sext_32 of the low word / 2^n, sraw the
signed low word / 2^n rounded down. rd takes the result, the pc goes to pc + 4, nothing else changes. (The amounts 32 to
63 are WordShiftsFrom32TakeTheFreeValue.) The encoding values are the general-knowledge ones of the spec (log 18). Rests
on: 45_op32.md R181, R184 to R187; 92_eei_decisions.md D31. -/
def Obligations.WordShiftsBelow32 : Prop :=
  ∀ (s : State) (rd rs1 rs2 : RegIdx),
    decodeWord (0b0000000#7 ++ rs2 ++ rs1 ++ 0b001#3 ++ rd ++ 0b0111011#7) = .ok (.sllw rd rs1 rs2) ∧
    ((s.reg rs2).toNat % 64 < 32 → ∃ v : Word, v.toInt = Int.bmod ((s.reg rs1).toNat * 2 ^ ((s.reg rs2).toNat % 64)) (2 ^ 32) ∧
      WritesReg s (.sllw rd rs1 rs2) rd v) ∧
    decodeWord (0b0000000#7 ++ rs2 ++ rs1 ++ 0b101#3 ++ rd ++ 0b0111011#7) = .ok (.srlw rd rs1 rs2) ∧
    ((s.reg rs2).toNat % 64 < 32 → ∃ v : Word, v.toInt = Int.bmod ((s.reg rs1).toNat % 2 ^ 32 / 2 ^ ((s.reg rs2).toNat % 64)) (2 ^ 32) ∧
      WritesReg s (.srlw rd rs1 rs2) rd v) ∧
    decodeWord (0b0100000#7 ++ rs2 ++ rs1 ++ 0b101#3 ++ rd ++ 0b0111011#7) = .ok (.sraw rd rs1 rs2) ∧
    ((s.reg rs2).toNat % 64 < 32 → ∃ v : Word, v.toInt = Int.bmod (s.reg rs1).toNat (2 ^ 32) / 2 ^ ((s.reg rs2).toNat % 64) ∧
      WritesReg s (.sraw rd rs1 rs2) rd v)

/-- O40. With n = x[rs2] modulo 64 from 32 to 63 and a the low 32 bits of x[rs1], the instruction completes: rd takes the sign
extension of WORD_SHIFT_HI(op, a, n), a parameter the spec leaves open and the model holds as an opaque constant (log 2),
the pc goes to pc + 4, nothing else changes. That bits 63:32 of x[rs1] have no part in it is the spec's decision D31, and
the 6-bit amount its decision D26. Rests on: 00_scope.md R8; 45_op32.md R181, R187; 92_eei_decisions.md D10, D26, D31; log
2. -/
def Obligations.WordShiftsFrom32TakeTheFreeValue : Prop :=
  ∀ (s : State) (rd rs1 rs2 : RegIdx) (a : BitVec 32) (n : BitVec 6), a.toNat = (s.reg rs1).toNat % 2 ^ 32 →
    n.toNat = (s.reg rs2).toNat % 64 → 32 ≤ n.toNat →
    (∃ v : Word, v.toInt = (Config.wordShiftHi .sllw a n).toInt ∧ WritesReg s (.sllw rd rs1 rs2) rd v) ∧
    (∃ v : Word, v.toInt = (Config.wordShiftHi .srlw a n).toInt ∧ WritesReg s (.srlw rd rs1 rs2) rd v) ∧
    (∃ v : Word, v.toInt = (Config.wordShiftHi .sraw a n).toInt ∧ WritesReg s (.sraw rd rs1 rs2) rd v)

/-- O41. For each of the nine word forms, whatever the operands (the free value of R187 among them), if it answers t and its
destination rd is not x0 then s(x[rd]) in t lies between -2^31 and 2^31 - 1. Rests on: 45_op32.md R188; 47_opimm32.md
R216. -/
def Obligations.WordResultsAreSignExtended : Prop :=
  ∀ (i : Instr) (rd : RegIdx) (s t : State), isWordForm i = true → destination i = some rd → rd ≠ 0#5 →
    exec i s = .next t → -(2 ^ 31) ≤ (t.reg rd).toInt ∧ (t.reg rd).toInt < 2 ^ 31

/-- O42. addi is the I-type word of opcode 0x13, funct3 000. It completes on every state: rd takes x[rs1] + imm modulo 2^64
with imm a signed 12-bit number, discarded for x0. The pc goes to pc + 4, nothing else changes. The encoding values are
the general-knowledge ones of the spec (log 18). Rests on: R192. -/
def Obligations.AddiWrapsModulo2To64 : Prop :=
  ∀ (s : State) (rd rs1 : RegIdx) (imm : BitVec 12),
    decodeWord (imm ++ rs1 ++ 0b000#3 ++ rd ++ 0b0010011#7) = .ok (.addi rd rs1 imm) ∧
    (∃ v : Word, (v.toNat : Int) = ((s.reg rs1).toNat + imm.toInt) % 2 ^ 64 ∧
      WritesReg s (.addi rd rs1 imm) rd v)

/-- O43. slti gives 1 if s(x[rs1]) < imm and 0 otherwise. sltiu compares u(x[rs1]) with the sign-extended immediate read as an
unsigned 64-bit number. Each completes on every state. rd takes the result, the pc goes to pc + 4, nothing else changes.
The encoding values are the general-knowledge ones of the spec (log 18). Rests on: R193; R194. -/
def Obligations.SetLessThanImmediateGivesOneOrZero : Prop :=
  ∀ (s : State) (rd rs1 : RegIdx) (imm : BitVec 12),
    decodeWord (imm ++ rs1 ++ 0b010#3 ++ rd ++ 0b0010011#7) = .ok (.slti rd rs1 imm) ∧
    (∃ v : Word, v.toNat = (if (s.reg rs1).toInt < imm.toInt then 1 else 0) ∧
      WritesReg s (.slti rd rs1 imm) rd v) ∧
    decodeWord (imm ++ rs1 ++ 0b011#3 ++ rd ++ 0b0010011#7) = .ok (.sltiu rd rs1 imm) ∧
    (∃ v : Word, v.toNat = (if ((s.reg rs1).toNat : Int) < imm.toInt % 2 ^ 64 then 1 else 0) ∧
      WritesReg s (.sltiu rd rs1 imm) rd v)

/-- O44. For k below 64, bit k of the result is the exclusive or, or, and of bit k of x[rs1] and bit min(k, 11) of the 12-bit
immediate, which is bit k of its sign extension. Each completes on every state. rd takes the result, the pc goes to pc +
4, nothing else changes. The encoding values are the general-knowledge ones of the spec (log 18). Rests on: R195; R196;
R197. -/
def Obligations.ImmediateLogicIsBitwise : Prop :=
  ∀ (s : State) (rd rs1 : RegIdx) (imm : BitVec 12),
    decodeWord (imm ++ rs1 ++ 0b100#3 ++ rd ++ 0b0010011#7) = .ok (.xori rd rs1 imm) ∧
    (∃ v : Word, (∀ k, k < 64 → v.getLsbD k = ((s.reg rs1).getLsbD k ^^ imm.getLsbD (min k 11))) ∧
      WritesReg s (.xori rd rs1 imm) rd v) ∧
    decodeWord (imm ++ rs1 ++ 0b110#3 ++ rd ++ 0b0010011#7) = .ok (.ori rd rs1 imm) ∧
    (∃ v : Word, (∀ k, k < 64 → v.getLsbD k = ((s.reg rs1).getLsbD k || imm.getLsbD (min k 11))) ∧
      WritesReg s (.ori rd rs1 imm) rd v) ∧
    decodeWord (imm ++ rs1 ++ 0b111#3 ++ rd ++ 0b0010011#7) = .ok (.andi rd rs1 imm) ∧
    (∃ v : Word, (∀ k, k < 64 → v.getLsbD k = ((s.reg rs1).getLsbD k && imm.getLsbD (min k 11))) ∧
      WritesReg s (.andi rd rs1 imm) rd v)

/-- O45. With shamt from 0 to 63: slli gives x[rs1] * 2^shamt modulo 2^64, srli u(x[rs1]) / 2^shamt, srai s(x[rs1]) / 2^shamt,
rounded down. Each completes on every state. rd takes the result, the pc goes to pc + 4, nothing else changes. A word with
another inst[31:26] is illegal (DecodeAgreesWithTheOpcodeTable). The encoding values are the general-knowledge ones of the
spec (log 18). Rests on: R198; R199; R200. -/
def Obligations.ImmediateShiftsByZeroTo63 : Prop :=
  ∀ (s : State) (rd rs1 : RegIdx) (shamt : BitVec 6),
    decodeWord (0b000000#6 ++ shamt ++ rs1 ++ 0b001#3 ++ rd ++ 0b0010011#7) = .ok (.slli rd rs1 shamt) ∧
    (∃ v : Word, v.toNat = (s.reg rs1).toNat * 2 ^ shamt.toNat % 2 ^ 64 ∧
      WritesReg s (.slli rd rs1 shamt) rd v) ∧
    decodeWord (0b000000#6 ++ shamt ++ rs1 ++ 0b101#3 ++ rd ++ 0b0010011#7) = .ok (.srli rd rs1 shamt) ∧
    (∃ v : Word, v.toNat = (s.reg rs1).toNat / 2 ^ shamt.toNat ∧
      WritesReg s (.srli rd rs1 shamt) rd v) ∧
    decodeWord (0b010000#6 ++ shamt ++ rs1 ++ 0b101#3 ++ rd ++ 0b0010011#7) = .ok (.srai rd rs1 shamt) ∧
    (∃ v : Word, v.toInt = (s.reg rs1).toInt / 2 ^ shamt.toNat ∧
      WritesReg s (.srai rd rs1 shamt) rd v)

/-- O46. addiw is the I-type word of opcode 0x1B, funct3 000. rd takes the balanced residue of x[rs1] + imm modulo 2^32, so
the upper half of x[rs1] is ignored. It completes on every state. The pc goes to pc + 4, nothing else changes. The
encoding values are the general-knowledge ones of the spec (log 18). Rests on: R212. -/
def Obligations.AddiwWrapsModulo2To32 : Prop :=
  ∀ (s : State) (rd rs1 : RegIdx) (imm : BitVec 12),
    decodeWord (imm ++ rs1 ++ 0b000#3 ++ rd ++ 0b0011011#7) = .ok (.addiw rd rs1 imm) ∧
    (∃ v : Word, v.toInt = Int.bmod ((s.reg rs1).toNat + imm.toInt) (2 ^ 32) ∧
      WritesReg s (.addiw rd rs1 imm) rd v)

/-- O47. With shamt from 0 to 31: slliw gives sext_32 of x[rs1] * 2^shamt, srliw sext_32 of the low word / 2^shamt, sraiw the
signed low word / 2^shamt rounded down. Each completes on every state. rd takes the result, the pc goes to pc + 4, nothing
else changes. A word with another inst[31:25] is illegal (DecodeAgreesWithTheOpcodeTable). That srliw and sraiw shift the
low 32 bits is the spec's decision D31, and that the amount is 5 bits with inst[31:25] compared whole its decision D9 (log
9). The encoding values are the general-knowledge ones of the spec (log 18). Rests on: 47_opimm32.md R211, R213, R214,
R215; 92_eei_decisions.md D9, D31; log 9. -/
def Obligations.ImmediateWordShiftsByZeroTo31 : Prop :=
  ∀ (s : State) (rd rs1 : RegIdx) (shamt : BitVec 5),
    decodeWord (0b0000000#7 ++ shamt ++ rs1 ++ 0b001#3 ++ rd ++ 0b0011011#7) = .ok (.slliw rd rs1 shamt) ∧
    (∃ v : Word, v.toInt = Int.bmod ((s.reg rs1).toNat * 2 ^ shamt.toNat) (2 ^ 32) ∧
      WritesReg s (.slliw rd rs1 shamt) rd v) ∧
    decodeWord (0b0000000#7 ++ shamt ++ rs1 ++ 0b101#3 ++ rd ++ 0b0011011#7) = .ok (.srliw rd rs1 shamt) ∧
    (∃ v : Word, v.toInt = Int.bmod ((s.reg rs1).toNat % 2 ^ 32 / 2 ^ shamt.toNat) (2 ^ 32) ∧
      WritesReg s (.srliw rd rs1 shamt) rd v) ∧
    decodeWord (0b0100000#7 ++ shamt ++ rs1 ++ 0b101#3 ++ rd ++ 0b0011011#7) = .ok (.sraiw rd rs1 shamt) ∧
    (∃ v : Word, v.toInt = Int.bmod (s.reg rs1).toNat (2 ^ 32) / 2 ^ shamt.toNat ∧
      WritesReg s (.sraiw rd rs1 shamt) rd v)

/-- O48. x0 reads 0 in every state. If an instruction's destination is x0 and it answers t, every register of t reads as in s.
addi x0,x0,0 completes and moves only the pc, to pc + 4 (the spec's decisions D25, D32). Rests on: 10_state.md R21;
30_encoding.md R98; 92_eei_decisions.md D25, D32. -/
def Obligations.WritesToX0AreDiscarded : Prop :=
  (∀ s : State, s.reg 0#5 = 0#64) ∧
  (∀ (i : Instr) (s t : State), destination i = some 0#5 → exec i s = .next t → SameRegs s t) ∧
  (∀ (s : State) (npc : Word), npc.toNat = (s.pc.toNat + 4) % 2 ^ 64 → GoesTo s (.addi 0#5 0#5 0#12) npc)

/-- O49. If exec i s answers t: a register other than i's destination reads as before, every byte reads as before unless i is
one of the four stores, and no CSR entry and no parameter changes. No store has a destination register. Rests on:
40_engine_cycle.md R118; 10_state.md R25, R39. -/
def Obligations.InstructionsWriteOneRegisterOrStore : Prop :=
  ∀ (i : Instr) (s t : State), exec i s = .next t →
    (∀ r, destination i ≠ some r → t.reg r = s.reg r) ∧ (isStore i = false → SameBytes s t) ∧ SameCsr s t ∧
    t.params = s.params ∧ (isStore i = true → destination i = none)

/-- O50. CsrRead(0x100) is mstatus and SSTATUS_MASK, CsrRead(0x104) is mie and mideleg, CsrRead(0x144) is mip and mideleg, bit
by bit, and CsrRead of any other index is that entry. Rests on: R31; R32; R33; R34. -/
def Obligations.CsrReadsFollowTheViews : Prop :=
  ∀ s : State,
    (∀ a : CsrIdx, a ∉ [0x100#12, 0x104#12, 0x144#12] → csrRead s a = s.csrEntry a) ∧
    (∀ k, (csrRead s 0x100#12).getLsbD k = ((s.csrEntry 0x300#12).getLsbD k && s.params.sstatusMask.getLsbD k)) ∧
    (∀ k, (csrRead s 0x104#12).getLsbD k = ((s.csrEntry 0x304#12).getLsbD k && (s.csrEntry 0x303#12).getLsbD k)) ∧
    (∀ k, (csrRead s 0x144#12).getLsbD k = ((s.csrEntry 0x344#12).getLsbD k && (s.csrEntry 0x303#12).getLsbD k))

/-- O51. On a canonical bank: CsrWrite to a plain index sets that entry. CsrWrite(0x100, v) replaces the bits of mstatus in
SSTATUS_MASK by those of v, and CsrWrite(0x104, v) the bits of mie in mideleg. In each case every other entry, every
register and byte, the pc, the status and the parameters are unchanged. Rests on: R35; R36; R37. -/
def Obligations.CsrWritesReplaceMaskedBits : Prop :=
  ∀ (s : State) (v : Word), CsrBank.wf s.csr = true →
    (∀ a : CsrIdx, a ∉ [0x100#12, 0x104#12, 0x144#12] → CsrWritesOnly s (csrWrite s a v) a v) ∧
    (∃ u, CsrWritesOnly s (csrWrite s 0x100#12 v) 0x300#12 u ∧
      ∀ k, u.getLsbD k = if s.params.sstatusMask.getLsbD k then v.getLsbD k else (s.csrEntry 0x300#12).getLsbD k) ∧
    (∃ u, CsrWritesOnly s (csrWrite s 0x104#12 v) 0x304#12 u ∧
      ∀ k, u.getLsbD k = if (s.csrEntry 0x303#12).getLsbD k then v.getLsbD k else (s.csrEntry 0x304#12).getLsbD k)

/-- O52. On a canonical bank, CsrWrite(0x144, v) replaces the bits of mip in mideleg by those of v. Every other entry, mie
among them, every register and byte, the pc, the status and the parameters are unchanged (the spec's decision D24). Rests
on: 10_state.md R38; 92_eei_decisions.md D24; 90_conflicts.md C3. -/
def Obligations.SipWriteGoesToMip : Prop :=
  ∀ (s : State) (v : Word), CsrBank.wf s.csr = true →
    ∃ u, CsrWritesOnly s (csrWrite s 0x144#12 v) 0x344#12 u ∧
      ∀ k, u.getLsbD k = if (s.csrEntry 0x303#12).getLsbD k then v.getLsbD k else (s.csrEntry 0x344#12).getLsbD k

/-- O53. For every number of steps k and every bank c, if k steps from s answer t then k steps from s with its bank replaced
by c answer t with its bank replaced by c. Rests on: 10_state.md R29, R39; 60_exceptions.md R232, R235. -/
def Obligations.CsrBankNeverInfluencesARun : Prop :=
  ∀ (k : Nat) (s t : State) (c : CsrBank), Host.Core.run Sys2Proof.core k s = .next t →
    Host.Core.run Sys2Proof.core k ({ s with csr := c } : State) = .next ({ t with csr := c } : State)

/-- O54. Each calling-convention name and each of x0 to x31 gives its register's value, fp gives x8, pc gives the program
counter, and a name outside those lists gives InvalidRegister of it. The dump is the 32 pairs of name and value in index
order, written out. (Names and register numbers come from the spec's general-knowledge table R22 and decision D28.) Rests
on: 60_exceptions.md R240 to R242; 10_state.md R22; 92_eei_decisions.md D28. -/
def Obligations.DebugLookupFindsTheNamedRegister : Prop :=
  ∀ s : State,
    (∀ p ∈ regNames, lookupRegister s p.1 = .value (s.reg p.2)) ∧
    (∀ p ∈ rawNames, lookupRegister s p.1 = .value (s.reg p.2)) ∧
    lookupRegister s "fp" = .value (s.reg 8#5) ∧ lookupRegister s "pc" = .value s.pc ∧
    (∀ name, name ∉ regNames.map Prod.fst → name ∉ rawNames.map Prod.fst → name ≠ "fp" → name ≠ "pc" →
      lookupRegister s name = .invalidRegister name) ∧
    registerDump s = [("zero", s.reg 0#5), ("ra", s.reg 1#5), ("sp", s.reg 2#5), ("gp", s.reg 3#5), ("tp", s.reg 4#5),
      ("t0", s.reg 5#5), ("t1", s.reg 6#5), ("t2", s.reg 7#5), ("s0", s.reg 8#5), ("s1", s.reg 9#5),
      ("a0", s.reg 10#5), ("a1", s.reg 11#5), ("a2", s.reg 12#5), ("a3", s.reg 13#5), ("a4", s.reg 14#5),
      ("a5", s.reg 15#5), ("a6", s.reg 16#5), ("a7", s.reg 17#5), ("s2", s.reg 18#5), ("s3", s.reg 19#5),
      ("s4", s.reg 20#5), ("s5", s.reg 21#5), ("s6", s.reg 22#5), ("s7", s.reg 23#5), ("s8", s.reg 24#5),
      ("s9", s.reg 25#5), ("s10", s.reg 26#5), ("s11", s.reg 27#5), ("t3", s.reg 28#5), ("t4", s.reg 29#5),
      ("t5", s.reg 30#5), ("t6", s.reg 31#5)] ∧
    rawNames = (List.range 32).map (fun i => ("x" ++ toString i, BitVec.ofNat 5 i))

/-- O55. For every host operation other than step, registers, pc, Memory, status and parameters are as before, and for every
one other than step and csr_store the whole state is (the spec's decision D33). The operation type is the model's form
(log 12). Rests on: 60_exceptions.md R240; 70_reset_and_hazards.md R259; 92_eei_decisions.md D33; log 12. -/
def Obligations.HostCannotWriteRegistersPcOrMemory : Prop :=
  ∀ (op : HostOp) (s : State), op ≠ .step →
    (hostNext op s).regs = s.regs ∧ (hostNext op s).pc = s.pc ∧ (hostNext op s).mem = s.mem ∧
    (hostNext op s).status = s.status ∧ (hostNext op s).params = s.params ∧
    ((∀ a v, op ≠ .csrStore a v) → hostNext op s = s)

/-- O56. For each of the nine word forms and any two states whose registers have the same low 32 bits, the form completes in
both and leaves the same value in its destination register, whatever bits 63:32 of its operands are. That holds of a
register word shift by 32 to 63 too, whose result is the free value of R187 (log 2). The rule is the spec's decision D31
(log 9). Rests on: 45_op32.md R181; 47_opimm32.md R211; 92_eei_decisions.md D31; 90_conflicts.md C5; log 2; log 9. -/
def Obligations.WordFormsIgnoreTheUpperHalf : Prop :=
  ∀ (i : Instr) (rd : RegIdx) (s s' : State), isWordForm i = true → destination i = some rd →
    (∀ r, (s'.reg r).toNat % 2 ^ 32 = (s.reg r).toNat % 2 ^ 32) →
    ∃ t t', exec i s = .next t ∧ exec i s' = .next t' ∧ t'.reg rd = t.reg rd
end

