-- ==== Sys2Proof/Laws/Sparse.lean ====
section
/-! SUPPORT. What the sparse tables do: a read after a write, the canonical form of every write, and that two canonical tables
that read alike are equal. -/

namespace Sys2Proof.Machine

variable {w : Nat}

@[simp] theorem sparseRead_nil (k : Nat) : sparseRead ([] : List (Nat × BitVec w)) k = 0#w := rfl

theorem sparseRead_cons (j k : Nat) (v : BitVec w) (l : List (Nat × BitVec w)) :
    sparseRead ((j, v) :: l) k = if j = k then v else sparseRead l k := rfl

theorem keysAbove_iff {k : Nat} {l : List (Nat × BitVec w)} : keysAbove k l = true ↔ ∀ p ∈ l, k < p.1 := by
  simp [keysAbove, List.all_eq_true]

/-- A key at or below a bound that every listed key exceeds is not listed, so it reads 0. -/
theorem sparseRead_of_keysAbove {j k : Nat} {l : List (Nat × BitVec w)} (h : keysAbove j l = true) (hk : k ≤ j) :
    sparseRead l k = 0#w := by
  rw [keysAbove_iff] at h
  induction l with
  | nil => rfl
  | cons p l ih =>
    have hp : j < p.1 := h p (by simp)
    rw [sparseRead_cons, if_neg (by omega)]
    exact ih fun q hq => h q (by simp [hq])

theorem sparseWf_cons {k : Nat} {v : BitVec w} {l : List (Nat × BitVec w)} :
    sparseWf ((k, v) :: l) = true ↔ v ≠ 0#w ∧ keysAbove k l = true ∧ sparseWf l = true := by
  simp [sparseWf, and_assoc]

/-- Reading after `sparseCons` in front of larger keys. -/
theorem sparseRead_sparseCons {k b : Nat} {v : BitVec w} {l : List (Nat × BitVec w)} (h : keysAbove k l = true) :
    sparseRead (sparseCons k v l) b = if b = k then v else sparseRead l b := by
  unfold sparseCons
  by_cases hv : v = 0#w
  · by_cases hb : b = k
    · simp [hv, hb, sparseRead_of_keysAbove h (le_refl k)]
    · simp [hv, hb]
  · by_cases hb : b = k
    · simp [hv, hb, sparseRead_cons]
    · simp [hv, hb, sparseRead_cons, Ne.symm hb]

theorem keysAbove_sparseCons {j k : Nat} {v : BitVec w} {l : List (Nat × BitVec w)} (hj : j < k)
    (h : keysAbove j l = true) : keysAbove j (sparseCons k v l) = true := by
  unfold sparseCons
  split
  · exact h
  · rw [keysAbove_iff] at h ⊢
    intro p hp
    rcases List.mem_cons.mp hp with rfl | hp
    · exact hj
    · exact h p hp

theorem sparseWf_sparseCons {k : Nat} {v : BitVec w} {l : List (Nat × BitVec w)} (h : keysAbove k l = true)
    (hl : sparseWf l = true) : sparseWf (sparseCons k v l) = true := by
  unfold sparseCons
  split
  · exact hl
  · exact sparseWf_cons.mpr ⟨‹_›, h, hl⟩

theorem keysAbove_trans {j k : Nat} {l : List (Nat × BitVec w)} (hjk : j < k) (h : keysAbove k l = true) :
    keysAbove j l = true := by
  rw [keysAbove_iff] at h ⊢
  exact fun p hp => hjk.trans (h p hp)

theorem keysAbove_sparseWrite {j k : Nat} {v : BitVec w} {l : List (Nat × BitVec w)} (hj : j < k)
    (h : keysAbove j l = true) : keysAbove j (sparseWrite l k v) = true := by
  induction l with
  | nil => exact keysAbove_sparseCons hj rfl
  | cons p l ih =>
    have hp : j < p.1 := keysAbove_iff.mp h p (by simp)
    have hl : keysAbove j l = true := keysAbove_iff.mpr fun q hq => keysAbove_iff.mp h q (by simp [hq])
    unfold sparseWrite
    split
    · exact keysAbove_sparseCons hj h
    · split
      · exact keysAbove_sparseCons hj hl
      · rw [keysAbove_iff]
        intro q hq
        rcases List.mem_cons.mp hq with rfl | hq
        · exact hp
        · exact keysAbove_iff.mp (ih hl) q hq

/-- A write keeps the canonical form. -/
theorem sparseWf_sparseWrite {k : Nat} {v : BitVec w} {l : List (Nat × BitVec w)} (h : sparseWf l = true) :
    sparseWf (sparseWrite l k v) = true := by
  induction l with
  | nil => exact sparseWf_sparseCons rfl rfl
  | cons p l ih =>
    obtain ⟨hv, ha, hl⟩ := sparseWf_cons.mp h
    unfold sparseWrite
    split
    · rename_i hk
      refine sparseWf_sparseCons ?_ h
      rw [keysAbove_iff]
      intro q hq
      rcases List.mem_cons.mp hq with rfl | hq
      · exact hk
      · exact hk.trans (keysAbove_iff.mp ha q hq)
    · split
      · rename_i hk
        subst hk
        exact sparseWf_sparseCons ha hl
      · exact sparseWf_cons.mpr ⟨hv, keysAbove_sparseWrite (by omega) ha, ih hl⟩

/-- Reading after a write: the value written at the key, and every other key as before. -/
theorem sparseRead_sparseWrite {k b : Nat} {v : BitVec w} {l : List (Nat × BitVec w)} (h : sparseWf l = true) :
    sparseRead (sparseWrite l k v) b = if b = k then v else sparseRead l b := by
  induction l with
  | nil => simpa [sparseWrite] using sparseRead_sparseCons (l := []) (b := b) (v := v) (k := k) rfl
  | cons p l ih =>
    obtain ⟨-, ha, hl⟩ := sparseWf_cons.mp h
    unfold sparseWrite
    split
    · rename_i hk
      refine sparseRead_sparseCons ?_
      rw [keysAbove_iff]
      intro q hq
      rcases List.mem_cons.mp hq with rfl | hq
      · exact hk
      · exact hk.trans (keysAbove_iff.mp ha q hq)
    · split
      · rename_i hk
        subst hk
        rw [sparseRead_sparseCons ha, sparseRead_cons]
        by_cases hb : b = p.1
        · rw [if_pos hb, if_pos hb]
        · rw [if_neg hb, if_neg hb, if_neg (Ne.symm hb)]
      · rename_i hk
        rw [sparseRead_cons, sparseRead_cons, ih hl]
        split
        · rename_i hpb
          rw [if_neg (by omega)]
        · rfl

/-- Every key listed after a write is the written key or was listed before. -/
theorem mem_sparseWrite {k : Nat} {v : BitVec w} {l : List (Nat × BitVec w)} {p : Nat × BitVec w}
    (h : p ∈ sparseWrite l k v) : p.1 = k ∨ p ∈ l := by
  have hcons : ∀ r : List (Nat × BitVec w), p ∈ sparseCons k v r → p.1 = k ∨ p ∈ r := by
    intro r hr
    unfold sparseCons at hr
    split at hr
    · exact .inr hr
    · rcases List.mem_cons.mp hr with rfl | hr
      · exact .inl rfl
      · exact .inr hr
  induction l with
  | nil => exact hcons [] h
  | cons q l ih =>
    unfold sparseWrite at h
    split at h
    · exact hcons _ h
    · split at h
      · rcases hcons _ h with h | h
        · exact .inl h
        · exact .inr (by simp [h])
      · rcases List.mem_cons.mp h with rfl | h
        · exact .inr (by simp)
        · rcases ih h with h | h
          · exact .inl h
          · exact .inr (by simp [h])

/-- The empty table is canonical. -/
@[simp] theorem sparseWf_nil : sparseWf ([] : List (Nat × BitVec w)) = true := rfl

end Sys2Proof.Machine
end

