-- ==== Sys2Proof/Laws/State.lean ====
section
/-! SUPPORT. The small lemmas of the state: one per field and per update, true by rfl, and the read laws of x0, the registers
and the CSR entries. -/

namespace Sys2Proof.Machine

variable (s : State)

/-! ### setPc -/

@[simp] theorem setPc_regs (a : Word) : (s.setPc a).regs = s.regs := rfl
@[simp] theorem setPc_pc (a : Word) : (s.setPc a).pc = a := rfl
@[simp] theorem setPc_mem (a : Word) : (s.setPc a).mem = s.mem := rfl
@[simp] theorem setPc_csr (a : Word) : (s.setPc a).csr = s.csr := rfl
@[simp] theorem setPc_status (a : Word) : (s.setPc a).status = s.status := rfl
@[simp] theorem setPc_params (a : Word) : (s.setPc a).params = s.params := rfl
@[simp] theorem setPc_reg (a : Word) (r : RegIdx) : (s.setPc a).reg r = s.reg r := rfl
@[simp] theorem setPc_byteAt (a : Word) (b : Nat) : (s.setPc a).byteAt b = s.byteAt b := rfl
@[simp] theorem setPc_csrEntry (a : Word) (c : CsrIdx) : (s.setPc a).csrEntry c = s.csrEntry c := rfl

/-! ### halt -/

@[simp] theorem halt_regs (r : HaltReason) : (s.halt r).regs = s.regs := rfl
@[simp] theorem halt_pc (r : HaltReason) : (s.halt r).pc = s.pc := rfl
@[simp] theorem halt_mem (r : HaltReason) : (s.halt r).mem = s.mem := rfl
@[simp] theorem halt_csr (r : HaltReason) : (s.halt r).csr = s.csr := rfl
@[simp] theorem halt_status (r : HaltReason) : (s.halt r).status = .halted r := rfl
@[simp] theorem halt_params (r : HaltReason) : (s.halt r).params = s.params := rfl
@[simp] theorem halt_reg (h : HaltReason) (r : RegIdx) : (s.halt h).reg r = s.reg r := rfl
@[simp] theorem halt_byteAt (h : HaltReason) (b : Nat) : (s.halt h).byteAt b = s.byteAt b := rfl
@[simp] theorem halt_csrEntry (h : HaltReason) (c : CsrIdx) : (s.halt h).csrEntry c = s.csrEntry c := rfl

/-! ### setReg -/

@[simp] theorem setReg_pc (r : RegIdx) (v : Word) : (s.setReg r v).pc = s.pc := by unfold State.setReg; split <;> rfl
@[simp] theorem setReg_mem (r : RegIdx) (v : Word) : (s.setReg r v).mem = s.mem := by unfold State.setReg; split <;> rfl
@[simp] theorem setReg_csr (r : RegIdx) (v : Word) : (s.setReg r v).csr = s.csr := by unfold State.setReg; split <;> rfl
@[simp] theorem setReg_status (r : RegIdx) (v : Word) : (s.setReg r v).status = s.status := by
  unfold State.setReg; split <;> rfl
@[simp] theorem setReg_params (r : RegIdx) (v : Word) : (s.setReg r v).params = s.params := by
  unfold State.setReg; split <;> rfl
@[simp] theorem setReg_byteAt (r : RegIdx) (v : Word) (b : Nat) : (s.setReg r v).byteAt b = s.byteAt b := by
  unfold State.setReg; split <;> rfl
@[simp] theorem setReg_csrEntry (r : RegIdx) (v : Word) (c : CsrIdx) : (s.setReg r v).csrEntry c = s.csrEntry c := by
  unfold State.setReg; split <;> rfl

/-- x0 reads 0 (R21). -/
@[simp] theorem reg_zero : s.reg 0#5 = 0#64 := rfl

theorem reg_of_ne {r : RegIdx} (h : r ≠ 0#5) : s.reg r = s.regs[r.toNat] := if_neg h

/-- A write to x0 is discarded (R21). -/
@[simp] theorem setReg_zero (v : Word) : s.setReg 0#5 v = s := rfl

/-- Reading a register after a write: the value written, unless to x0, and every other register as before. -/
theorem setReg_reg (r i : RegIdx) (v : Word) : (s.setReg i v).reg r = if r = i ∧ i ≠ 0#5 then v else s.reg r := by
  by_cases hi : i = 0#5
  · subst hi
    simp
  · by_cases hr : r = 0#5
    · subst hr
      simp [Ne.symm hi]
    · have hset : s.setReg i v = { s with regs := s.regs.set i.toNat v } := if_neg hi
      rw [hset, reg_of_ne _ hr, reg_of_ne _ hr]
      by_cases hri : r = i
      · subst hri
        simp [hr]
      · have hn : ¬ i.toNat = r.toNat := fun h => hri (BitVec.eq_of_toNat_eq h.symm)
        simp [hn, hri]

/-- The storage under x0 is never written. -/
theorem setReg_regs_zero (i : RegIdx) (v : Word) : (s.setReg i v).regs[0] = s.regs[0] := by
  by_cases hi : i = 0#5
  · subst hi
    rfl
  · have hset : s.setReg i v = { s with regs := s.regs.set i.toNat v } := if_neg hi
    have hn : ¬ i.toNat = 0 := fun h => hi (BitVec.eq_of_toNat_eq h)
    rw [hset]
    simp [hn]

/-! ### The Memory field -/

@[simp] theorem withMem_reg (m : Memory) (r : RegIdx) : ({ s with mem := m } : State).reg r = s.reg r := rfl
@[simp] theorem withMem_csrEntry (m : Memory) (c : CsrIdx) : ({ s with mem := m } : State).csrEntry c = s.csrEntry c := rfl
theorem withMem_byteAt (m : Memory) (b : Nat) : ({ s with mem := m } : State).byteAt b = sparseRead m b := rfl

/-! ### setCsrEntry -/

@[simp] theorem setCsrEntry_regs (c : CsrIdx) (v : Word) : (s.setCsrEntry c v).regs = s.regs := rfl
@[simp] theorem setCsrEntry_pc (c : CsrIdx) (v : Word) : (s.setCsrEntry c v).pc = s.pc := rfl
@[simp] theorem setCsrEntry_mem (c : CsrIdx) (v : Word) : (s.setCsrEntry c v).mem = s.mem := rfl
@[simp] theorem setCsrEntry_status (c : CsrIdx) (v : Word) : (s.setCsrEntry c v).status = s.status := rfl
@[simp] theorem setCsrEntry_params (c : CsrIdx) (v : Word) : (s.setCsrEntry c v).params = s.params := rfl
@[simp] theorem setCsrEntry_reg (c : CsrIdx) (v : Word) (r : RegIdx) : (s.setCsrEntry c v).reg r = s.reg r := rfl
@[simp] theorem setCsrEntry_byteAt (c : CsrIdx) (v : Word) (b : Nat) : (s.setCsrEntry c v).byteAt b = s.byteAt b := rfl

/-- Reading an entry after an entry is written. -/
theorem setCsrEntry_csrEntry (c d : CsrIdx) (v : Word) (h : CsrBank.wf s.csr = true) :
    (s.setCsrEntry c v).csrEntry d = if d = c then v else s.csrEntry d := by
  have hkey : (d.toNat = c.toNat) = (d = c) := propext ⟨BitVec.eq_of_toNat_eq, fun e => e ▸ rfl⟩
  unfold State.csrEntry State.setCsrEntry
  simp only [sparseRead_sparseWrite h, hkey]

end Sys2Proof.Machine
end

