-- ==== Sys2Proof/Laws/Csr.lean ====
section
/-! SUPPORT. What the CSR port does, said once: each write is one write of one entry, with a masked value for the views. -/

namespace Sys2Proof.Machine

/-- A bit of a masked write: the written bit inside the mask, the old bit outside (R36 to R38). -/
theorem maskedWrite_getLsbD (old mask v : Word) (k : Nat) :
    (maskedWrite old mask v).getLsbD k = if mask.getLsbD k then v.getLsbD k else old.getLsbD k := by
  by_cases hk : k < 64
  · rw [BitVec.getLsbD_eq_getElem hk, BitVec.getLsbD_eq_getElem hk, BitVec.getLsbD_eq_getElem hk,
      BitVec.getLsbD_eq_getElem hk]
    cases h : mask[k] <;> simp [maskedWrite, h]
  · have hz (x : Word) : x.getLsbD k = false := BitVec.getLsbD_of_ge x k (by omega)
    simp [hz]

/-- Every port write writes one entry, which is none of the three views (R30, R35 to R38). -/
theorem csrWrite_entry (s : State) (a : CsrIdx) (v : Word) :
    ∃ c u, csrWrite s a v = s.setCsrEntry c u ∧ c ≠ csrSstatus ∧ c ≠ csrSie ∧ c ≠ csrSip := by
  unfold csrWrite
  split
  · exact ⟨_, _, rfl, by decide, by decide, by decide⟩
  · split
    · exact ⟨_, _, rfl, by decide, by decide, by decide⟩
    · split
      · exact ⟨_, _, rfl, by decide, by decide, by decide⟩
      · exact ⟨_, _, rfl, ‹_›, ‹_›, ‹_›⟩

/-- A port write keeps the bank's canonical form. -/
theorem csrWrite_wf {s : State} (h : CsrBank.wf s.csr = true) (a : CsrIdx) (v : Word) :
    CsrBank.wf (csrWrite s a v).csr = true := by
  obtain ⟨c, u, he, -⟩ := csrWrite_entry s a v
  rw [he]
  exact sparseWf_sparseWrite h

end Sys2Proof.Machine
end

