-- ==== Sys2Proof/Laws/Encoding.lean ====
section
/-! SUPPORT. The fields of an encoded word, format by format (spec/30_encoding.md R80 to R85), and each format rebuilt from a
word's fields. -/

namespace Sys2Proof

/-- A slice that lies above the low part of a concatenation. -/
theorem extract_append_high {a b : Nat} (x : BitVec a) (y : BitVec b) {k l : Nat} (h : b ≤ k) :
    (x ++ y).extractLsb' k l = x.extractLsb' (k - b) l := by
  ext i hi
  simp only [BitVec.getElem_extractLsb', BitVec.getLsbD_append]
  rw [if_neg (by omega)]
  congr 1
  omega

/-- A slice that lies within the low part of a concatenation. -/
theorem extract_append_low {a b : Nat} (x : BitVec a) (y : BitVec b) {k l : Nat} (h : k + l ≤ b) :
    (x ++ y).extractLsb' k l = y.extractLsb' k l := by
  ext i hi
  simp only [BitVec.getElem_extractLsb', BitVec.getLsbD_append]
  rw [if_pos (by omega)]

/-- The whole of a value is its slice. -/
theorem extract_self {a : Nat} (x : BitVec a) : x.extractLsb' 0 a = x := by
  ext i hi
  simp

/-- A slice of a slice. -/
theorem extract_extract {a : Nat} (x : BitVec a) {k l j m : Nat} (h : j + m ≤ l) :
    (x.extractLsb' k l).extractLsb' j m = x.extractLsb' (k + j) m := by
  ext i hi
  simp only [BitVec.getElem_extractLsb', BitVec.getLsbD_extractLsb']
  simp only [show j + i < l by omega, decide_true, Bool.true_and]
  congr 1
  omega

/-- Two adjacent slices make one. -/
theorem extract_join {a : Nat} (x : BitVec a) (k l m : Nat) :
    x.extractLsb' (k + m) l ++ x.extractLsb' k m = x.extractLsb' k (l + m) := by
  ext i hi
  simp only [BitVec.getElem_append, BitVec.getElem_extractLsb']
  split
  · rfl
  · congr 1
    omega

/-- A slice of one bit less than another, with its low bit. -/
theorem evenOffset_iff {imm : BitVec 13} : evenOffset imm = true ↔ imm.extractLsb' 0 1 = 0#1 := by
  simp [evenOffset]

/-! ### R-type -/

@[simp] theorem fieldOpcode_encodeR (f7 : BitVec 7) (rs2 rs1 : RegIdx) (f3 : BitVec 3) (rd : RegIdx) (op : BitVec 7) :
    fieldOpcode (encodeR f7 rs2 rs1 f3 rd op) = op := by
  unfold fieldOpcode encodeR
  rw [extract_append_low _ _ (by decide)]
  exact extract_self _

@[simp] theorem fieldFunct3_encodeR (f7 : BitVec 7) (rs2 rs1 : RegIdx) (f3 : BitVec 3) (rd : RegIdx) (op : BitVec 7) :
    fieldFunct3 (encodeR f7 rs2 rs1 f3 rd op) = f3 := by
  unfold fieldFunct3 encodeR
  rw [extract_append_high _ _ (by decide), extract_append_high _ _ (by decide), extract_append_low _ _ (by decide)]
  exact extract_self _

@[simp] theorem fieldRs1_encodeR (f7 : BitVec 7) (rs2 rs1 : RegIdx) (f3 : BitVec 3) (rd : RegIdx) (op : BitVec 7) :
    fieldRs1 (encodeR f7 rs2 rs1 f3 rd op) = rs1 := by
  unfold fieldRs1 encodeR
  rw [extract_append_high _ _ (by decide), extract_append_high _ _ (by decide), extract_append_high _ _ (by decide), extract_append_low _ _ (by decide)]
  exact extract_self _

@[simp] theorem fieldRd_encodeR (f7 : BitVec 7) (rs2 rs1 : RegIdx) (f3 : BitVec 3) (rd : RegIdx) (op : BitVec 7) :
    fieldRd (encodeR f7 rs2 rs1 f3 rd op) = rd := by
  unfold fieldRd encodeR
  rw [extract_append_high _ _ (by decide), extract_append_low _ _ (by decide)]
  exact extract_self _

@[simp] theorem fieldRs2_encodeR (f7 : BitVec 7) (rs2 rs1 : RegIdx) (f3 : BitVec 3) (rd : RegIdx) (op : BitVec 7) :
    fieldRs2 (encodeR f7 rs2 rs1 f3 rd op) = rs2 := by
  unfold fieldRs2 encodeR
  rw [extract_append_high _ _ (by decide), extract_append_high _ _ (by decide), extract_append_high _ _ (by decide), extract_append_high _ _ (by decide), extract_append_low _ _ (by decide)]
  exact extract_self _

@[simp] theorem fieldFunct7_encodeR (f7 : BitVec 7) (rs2 rs1 : RegIdx) (f3 : BitVec 3) (rd : RegIdx) (op : BitVec 7) :
    fieldFunct7 (encodeR f7 rs2 rs1 f3 rd op) = f7 := by
  unfold fieldFunct7 encodeR
  rw [extract_append_high _ _ (by decide), extract_append_high _ _ (by decide), extract_append_high _ _ (by decide), extract_append_high _ _ (by decide), extract_append_high _ _ (by decide)]
  exact extract_self _

/-! ### I-type -/

@[simp] theorem fieldOpcode_encodeI (imm : BitVec 12) (rs1 : RegIdx) (f3 : BitVec 3) (rd : RegIdx) (op : BitVec 7) :
    fieldOpcode (encodeI imm rs1 f3 rd op) = op := by
  unfold fieldOpcode encodeI
  rw [extract_append_low _ _ (by decide)]
  exact extract_self _

@[simp] theorem fieldFunct3_encodeI (imm : BitVec 12) (rs1 : RegIdx) (f3 : BitVec 3) (rd : RegIdx) (op : BitVec 7) :
    fieldFunct3 (encodeI imm rs1 f3 rd op) = f3 := by
  unfold fieldFunct3 encodeI
  rw [extract_append_high _ _ (by decide), extract_append_high _ _ (by decide), extract_append_low _ _ (by decide)]
  exact extract_self _

@[simp] theorem fieldRs1_encodeI (imm : BitVec 12) (rs1 : RegIdx) (f3 : BitVec 3) (rd : RegIdx) (op : BitVec 7) :
    fieldRs1 (encodeI imm rs1 f3 rd op) = rs1 := by
  unfold fieldRs1 encodeI
  rw [extract_append_high _ _ (by decide), extract_append_high _ _ (by decide), extract_append_high _ _ (by decide), extract_append_low _ _ (by decide)]
  exact extract_self _

@[simp] theorem fieldRd_encodeI (imm : BitVec 12) (rs1 : RegIdx) (f3 : BitVec 3) (rd : RegIdx) (op : BitVec 7) :
    fieldRd (encodeI imm rs1 f3 rd op) = rd := by
  unfold fieldRd encodeI
  rw [extract_append_high _ _ (by decide), extract_append_low _ _ (by decide)]
  exact extract_self _

@[simp] theorem fieldImmI_encodeI (imm : BitVec 12) (rs1 : RegIdx) (f3 : BitVec 3) (rd : RegIdx) (op : BitVec 7) :
    fieldImmI (encodeI imm rs1 f3 rd op) = imm := by
  unfold fieldImmI encodeI
  rw [extract_append_high _ _ (by decide), extract_append_high _ _ (by decide), extract_append_high _ _ (by decide), extract_append_high _ _ (by decide)]
  exact extract_self _

/-! ### I-type shift, 64-bit -/

@[simp] theorem fieldOpcode_encodeShift6 (f6 sh : BitVec 6) (rs1 : RegIdx) (f3 : BitVec 3) (rd : RegIdx) (op : BitVec 7) :
    fieldOpcode (encodeShift6 f6 sh rs1 f3 rd op) = op := by
  unfold fieldOpcode encodeShift6
  rw [extract_append_low _ _ (by decide)]
  exact extract_self _

@[simp] theorem fieldFunct3_encodeShift6 (f6 sh : BitVec 6) (rs1 : RegIdx) (f3 : BitVec 3) (rd : RegIdx) (op : BitVec 7) :
    fieldFunct3 (encodeShift6 f6 sh rs1 f3 rd op) = f3 := by
  unfold fieldFunct3 encodeShift6
  rw [extract_append_high _ _ (by decide), extract_append_high _ _ (by decide), extract_append_low _ _ (by decide)]
  exact extract_self _

@[simp] theorem fieldRs1_encodeShift6 (f6 sh : BitVec 6) (rs1 : RegIdx) (f3 : BitVec 3) (rd : RegIdx) (op : BitVec 7) :
    fieldRs1 (encodeShift6 f6 sh rs1 f3 rd op) = rs1 := by
  unfold fieldRs1 encodeShift6
  rw [extract_append_high _ _ (by decide), extract_append_high _ _ (by decide), extract_append_high _ _ (by decide), extract_append_low _ _ (by decide)]
  exact extract_self _

@[simp] theorem fieldRd_encodeShift6 (f6 sh : BitVec 6) (rs1 : RegIdx) (f3 : BitVec 3) (rd : RegIdx) (op : BitVec 7) :
    fieldRd (encodeShift6 f6 sh rs1 f3 rd op) = rd := by
  unfold fieldRd encodeShift6
  rw [extract_append_high _ _ (by decide), extract_append_low _ _ (by decide)]
  exact extract_self _

@[simp] theorem fieldFunct6_encodeShift6 (f6 sh : BitVec 6) (rs1 : RegIdx) (f3 : BitVec 3) (rd : RegIdx) (op : BitVec 7) :
    fieldFunct6 (encodeShift6 f6 sh rs1 f3 rd op) = f6 := by
  unfold fieldFunct6 encodeShift6
  rw [extract_append_high _ _ (by decide), extract_append_high _ _ (by decide), extract_append_high _ _ (by decide), extract_append_high _ _ (by decide), extract_append_high _ _ (by decide)]
  exact extract_self _

@[simp] theorem fieldShamt6_encodeShift6 (f6 sh : BitVec 6) (rs1 : RegIdx) (f3 : BitVec 3) (rd : RegIdx) (op : BitVec 7) :
    fieldShamt6 (encodeShift6 f6 sh rs1 f3 rd op) = sh := by
  unfold fieldShamt6 encodeShift6
  rw [extract_append_high _ _ (by decide), extract_append_high _ _ (by decide), extract_append_high _ _ (by decide), extract_append_high _ _ (by decide), extract_append_low _ _ (by decide)]
  exact extract_self _

/-! ### I-type shift, word -/

@[simp] theorem fieldOpcode_encodeShift5 (f7 : BitVec 7) (sh : BitVec 5) (rs1 : RegIdx) (f3 : BitVec 3) (rd : RegIdx) (op : BitVec 7) :
    fieldOpcode (encodeShift5 f7 sh rs1 f3 rd op) = op := by
  unfold fieldOpcode encodeShift5
  rw [extract_append_low _ _ (by decide)]
  exact extract_self _

@[simp] theorem fieldFunct3_encodeShift5 (f7 : BitVec 7) (sh : BitVec 5) (rs1 : RegIdx) (f3 : BitVec 3) (rd : RegIdx) (op : BitVec 7) :
    fieldFunct3 (encodeShift5 f7 sh rs1 f3 rd op) = f3 := by
  unfold fieldFunct3 encodeShift5
  rw [extract_append_high _ _ (by decide), extract_append_high _ _ (by decide), extract_append_low _ _ (by decide)]
  exact extract_self _

@[simp] theorem fieldRs1_encodeShift5 (f7 : BitVec 7) (sh : BitVec 5) (rs1 : RegIdx) (f3 : BitVec 3) (rd : RegIdx) (op : BitVec 7) :
    fieldRs1 (encodeShift5 f7 sh rs1 f3 rd op) = rs1 := by
  unfold fieldRs1 encodeShift5
  rw [extract_append_high _ _ (by decide), extract_append_high _ _ (by decide), extract_append_high _ _ (by decide), extract_append_low _ _ (by decide)]
  exact extract_self _

@[simp] theorem fieldRd_encodeShift5 (f7 : BitVec 7) (sh : BitVec 5) (rs1 : RegIdx) (f3 : BitVec 3) (rd : RegIdx) (op : BitVec 7) :
    fieldRd (encodeShift5 f7 sh rs1 f3 rd op) = rd := by
  unfold fieldRd encodeShift5
  rw [extract_append_high _ _ (by decide), extract_append_low _ _ (by decide)]
  exact extract_self _

@[simp] theorem fieldFunct7_encodeShift5 (f7 : BitVec 7) (sh : BitVec 5) (rs1 : RegIdx) (f3 : BitVec 3) (rd : RegIdx) (op : BitVec 7) :
    fieldFunct7 (encodeShift5 f7 sh rs1 f3 rd op) = f7 := by
  unfold fieldFunct7 encodeShift5
  rw [extract_append_high _ _ (by decide), extract_append_high _ _ (by decide), extract_append_high _ _ (by decide), extract_append_high _ _ (by decide), extract_append_high _ _ (by decide)]
  exact extract_self _

@[simp] theorem fieldShamt5_encodeShift5 (f7 : BitVec 7) (sh : BitVec 5) (rs1 : RegIdx) (f3 : BitVec 3) (rd : RegIdx) (op : BitVec 7) :
    fieldShamt5 (encodeShift5 f7 sh rs1 f3 rd op) = sh := by
  unfold fieldShamt5 encodeShift5
  rw [extract_append_high _ _ (by decide), extract_append_high _ _ (by decide), extract_append_high _ _ (by decide), extract_append_high _ _ (by decide), extract_append_low _ _ (by decide)]
  exact extract_self _

/-! ### S-type -/

@[simp] theorem fieldOpcode_encodeS (imm : BitVec 12) (rs2 rs1 : RegIdx) (f3 : BitVec 3) (op : BitVec 7) :
    fieldOpcode (encodeS imm rs2 rs1 f3 op) = op := by
  unfold fieldOpcode encodeS
  rw [extract_append_low _ _ (by decide)]
  exact extract_self _

@[simp] theorem fieldFunct3_encodeS (imm : BitVec 12) (rs2 rs1 : RegIdx) (f3 : BitVec 3) (op : BitVec 7) :
    fieldFunct3 (encodeS imm rs2 rs1 f3 op) = f3 := by
  unfold fieldFunct3 encodeS
  rw [extract_append_high _ _ (by decide), extract_append_high _ _ (by decide), extract_append_low _ _ (by decide)]
  exact extract_self _

@[simp] theorem fieldRs1_encodeS (imm : BitVec 12) (rs2 rs1 : RegIdx) (f3 : BitVec 3) (op : BitVec 7) :
    fieldRs1 (encodeS imm rs2 rs1 f3 op) = rs1 := by
  unfold fieldRs1 encodeS
  rw [extract_append_high _ _ (by decide), extract_append_high _ _ (by decide), extract_append_high _ _ (by decide), extract_append_low _ _ (by decide)]
  exact extract_self _

@[simp] theorem fieldRs2_encodeS (imm : BitVec 12) (rs2 rs1 : RegIdx) (f3 : BitVec 3) (op : BitVec 7) :
    fieldRs2 (encodeS imm rs2 rs1 f3 op) = rs2 := by
  unfold fieldRs2 encodeS
  rw [extract_append_high _ _ (by decide), extract_append_high _ _ (by decide), extract_append_high _ _ (by decide), extract_append_high _ _ (by decide), extract_append_low _ _ (by decide)]
  exact extract_self _

/-! ### B-type -/

@[simp] theorem fieldOpcode_encodeB (imm : BitVec 13) (rs2 rs1 : RegIdx) (f3 : BitVec 3) (op : BitVec 7) :
    fieldOpcode (encodeB imm rs2 rs1 f3 op) = op := by
  unfold fieldOpcode encodeB
  rw [extract_append_low _ _ (by decide)]
  exact extract_self _

@[simp] theorem fieldFunct3_encodeB (imm : BitVec 13) (rs2 rs1 : RegIdx) (f3 : BitVec 3) (op : BitVec 7) :
    fieldFunct3 (encodeB imm rs2 rs1 f3 op) = f3 := by
  unfold fieldFunct3 encodeB
  rw [extract_append_high _ _ (by decide), extract_append_high _ _ (by decide), extract_append_high _ _ (by decide), extract_append_low _ _ (by decide)]
  exact extract_self _

@[simp] theorem fieldRs1_encodeB (imm : BitVec 13) (rs2 rs1 : RegIdx) (f3 : BitVec 3) (op : BitVec 7) :
    fieldRs1 (encodeB imm rs2 rs1 f3 op) = rs1 := by
  unfold fieldRs1 encodeB
  rw [extract_append_high _ _ (by decide), extract_append_high _ _ (by decide), extract_append_high _ _ (by decide), extract_append_high _ _ (by decide), extract_append_low _ _ (by decide)]
  exact extract_self _

@[simp] theorem fieldRs2_encodeB (imm : BitVec 13) (rs2 rs1 : RegIdx) (f3 : BitVec 3) (op : BitVec 7) :
    fieldRs2 (encodeB imm rs2 rs1 f3 op) = rs2 := by
  unfold fieldRs2 encodeB
  rw [extract_append_high _ _ (by decide), extract_append_high _ _ (by decide), extract_append_high _ _ (by decide), extract_append_high _ _ (by decide), extract_append_high _ _ (by decide), extract_append_low _ _ (by decide)]
  exact extract_self _

/-- The S-immediate of an encoded store (R83). -/
@[simp] theorem fieldImmS_encodeS (imm : BitVec 12) (rs2 rs1 : RegIdx) (f3 : BitVec 3) (op : BitVec 7) :
    fieldImmS (encodeS imm rs2 rs1 f3 op) = imm := by
  have h1 : (encodeS imm rs2 rs1 f3 op).extractLsb' 25 7 = imm.extractLsb' 5 7 := by
    unfold encodeS
    rw [extract_append_high _ _ (by decide), extract_append_high _ _ (by decide), extract_append_high _ _ (by decide), extract_append_high _ _ (by decide), extract_append_high _ _ (by decide)]
    exact extract_self _
  have h2 : (encodeS imm rs2 rs1 f3 op).extractLsb' 7 5 = imm.extractLsb' 0 5 := by
    unfold encodeS
    rw [extract_append_high _ _ (by decide), extract_append_low _ _ (by decide)]
    exact extract_self _
  unfold fieldImmS
  rw [h1, h2]
  exact (extract_join imm 0 7 5).trans (extract_self imm)

/-- The B-immediate of an encoded branch with an even offset (R84). -/
theorem fieldImmB_encodeB (imm : BitVec 13) (rs2 rs1 : RegIdx) (f3 : BitVec 3) (op : BitVec 7)
    (h : evenOffset imm = true) : fieldImmB (encodeB imm rs2 rs1 f3 op) = imm := by
  have h12 : (encodeB imm rs2 rs1 f3 op).extractLsb' 31 1 = imm.extractLsb' 12 1 := by
    unfold encodeB
    rw [extract_append_high _ _ (by decide), extract_append_high _ _ (by decide), extract_append_high _ _ (by decide), extract_append_high _ _ (by decide), extract_append_high _ _ (by decide), extract_append_high _ _ (by decide), extract_append_high _ _ (by decide)]
    exact extract_self _
  have h11 : (encodeB imm rs2 rs1 f3 op).extractLsb' 7 1 = imm.extractLsb' 11 1 := by
    unfold encodeB
    rw [extract_append_high _ _ (by decide), extract_append_low _ _ (by decide)]
    exact extract_self _
  have h5 : (encodeB imm rs2 rs1 f3 op).extractLsb' 25 6 = imm.extractLsb' 5 6 := by
    unfold encodeB
    rw [extract_append_high _ _ (by decide), extract_append_high _ _ (by decide), extract_append_high _ _ (by decide), extract_append_high _ _ (by decide), extract_append_high _ _ (by decide), extract_append_high _ _ (by decide), extract_append_low _ _ (by decide)]
    exact extract_self _
  have h1 : (encodeB imm rs2 rs1 f3 op).extractLsb' 8 4 = imm.extractLsb' 1 4 := by
    unfold encodeB
    rw [extract_append_high _ _ (by decide), extract_append_high _ _ (by decide), extract_append_low _ _ (by decide)]
    exact extract_self _
  unfold fieldImmB
  rw [h12, h11, h5, h1, ← evenOffset_iff.mp h]
  have j1 : imm.extractLsb' 12 1 ++ imm.extractLsb' 11 1 = imm.extractLsb' 11 2 := extract_join imm 11 1 1
  have j2 : imm.extractLsb' 11 2 ++ imm.extractLsb' 5 6 = imm.extractLsb' 5 8 := extract_join imm 5 2 6
  have j3 : imm.extractLsb' 5 8 ++ imm.extractLsb' 1 4 = imm.extractLsb' 1 12 := extract_join imm 1 8 4
  have j4 : imm.extractLsb' 1 12 ++ imm.extractLsb' 0 1 = imm.extractLsb' 0 13 := extract_join imm 0 12 1
  rw [j1, j2, j3, j4]
  exact extract_self imm

/-- The offset that decode reads is even (R84). -/
theorem evenOffset_fieldImmB (w : InstWord) : evenOffset (fieldImmB w) = true := by
  rw [evenOffset_iff]
  unfold fieldImmB
  rw [extract_append_low _ _ (by decide)]
  rfl

/-! ### A word is each format of its own fields -/

theorem encodeR_fields (w : InstWord) :
    encodeR (fieldFunct7 w) (fieldRs2 w) (fieldRs1 w) (fieldFunct3 w) (fieldRd w) (fieldOpcode w) = w := by
  unfold encodeR fieldFunct7 fieldRs2 fieldRs1 fieldFunct3 fieldRd fieldOpcode
  have j0 : w.extractLsb' 25 7 ++ w.extractLsb' 20 5 = w.extractLsb' 20 12 := extract_join w 20 7 5
  have j1 : w.extractLsb' 20 12 ++ w.extractLsb' 15 5 = w.extractLsb' 15 17 := extract_join w 15 12 5
  have j2 : w.extractLsb' 15 17 ++ w.extractLsb' 12 3 = w.extractLsb' 12 20 := extract_join w 12 17 3
  have j3 : w.extractLsb' 12 20 ++ w.extractLsb' 7 5 = w.extractLsb' 7 25 := extract_join w 7 20 5
  have j4 : w.extractLsb' 7 25 ++ w.extractLsb' 0 7 = w.extractLsb' 0 32 := extract_join w 0 25 7
  rw [j0, j1, j2, j3, j4]
  exact extract_self w

theorem encodeI_fields (w : InstWord) :
    encodeI (fieldImmI w) (fieldRs1 w) (fieldFunct3 w) (fieldRd w) (fieldOpcode w) = w := by
  unfold encodeI fieldImmI fieldRs1 fieldFunct3 fieldRd fieldOpcode
  have j0 : w.extractLsb' 20 12 ++ w.extractLsb' 15 5 = w.extractLsb' 15 17 := extract_join w 15 12 5
  have j1 : w.extractLsb' 15 17 ++ w.extractLsb' 12 3 = w.extractLsb' 12 20 := extract_join w 12 17 3
  have j2 : w.extractLsb' 12 20 ++ w.extractLsb' 7 5 = w.extractLsb' 7 25 := extract_join w 7 20 5
  have j3 : w.extractLsb' 7 25 ++ w.extractLsb' 0 7 = w.extractLsb' 0 32 := extract_join w 0 25 7
  rw [j0, j1, j2, j3]
  exact extract_self w

theorem encodeShift6_fields (w : InstWord) :
    encodeShift6 (fieldFunct6 w) (fieldShamt6 w) (fieldRs1 w) (fieldFunct3 w) (fieldRd w) (fieldOpcode w) = w := by
  unfold encodeShift6 fieldFunct6 fieldShamt6 fieldRs1 fieldFunct3 fieldRd fieldOpcode
  have j0 : w.extractLsb' 26 6 ++ w.extractLsb' 20 6 = w.extractLsb' 20 12 := extract_join w 20 6 6
  have j1 : w.extractLsb' 20 12 ++ w.extractLsb' 15 5 = w.extractLsb' 15 17 := extract_join w 15 12 5
  have j2 : w.extractLsb' 15 17 ++ w.extractLsb' 12 3 = w.extractLsb' 12 20 := extract_join w 12 17 3
  have j3 : w.extractLsb' 12 20 ++ w.extractLsb' 7 5 = w.extractLsb' 7 25 := extract_join w 7 20 5
  have j4 : w.extractLsb' 7 25 ++ w.extractLsb' 0 7 = w.extractLsb' 0 32 := extract_join w 0 25 7
  rw [j0, j1, j2, j3, j4]
  exact extract_self w

theorem encodeShift5_fields (w : InstWord) :
    encodeShift5 (fieldFunct7 w) (fieldShamt5 w) (fieldRs1 w) (fieldFunct3 w) (fieldRd w) (fieldOpcode w) = w := by
  unfold encodeShift5 fieldFunct7 fieldShamt5 fieldRs1 fieldFunct3 fieldRd fieldOpcode
  have j0 : w.extractLsb' 25 7 ++ w.extractLsb' 20 5 = w.extractLsb' 20 12 := extract_join w 20 7 5
  have j1 : w.extractLsb' 20 12 ++ w.extractLsb' 15 5 = w.extractLsb' 15 17 := extract_join w 15 12 5
  have j2 : w.extractLsb' 15 17 ++ w.extractLsb' 12 3 = w.extractLsb' 12 20 := extract_join w 12 17 3
  have j3 : w.extractLsb' 12 20 ++ w.extractLsb' 7 5 = w.extractLsb' 7 25 := extract_join w 7 20 5
  have j4 : w.extractLsb' 7 25 ++ w.extractLsb' 0 7 = w.extractLsb' 0 32 := extract_join w 0 25 7
  rw [j0, j1, j2, j3, j4]
  exact extract_self w

theorem encodeS_fields (w : InstWord) :
    encodeS (fieldImmS w) (fieldRs2 w) (fieldRs1 w) (fieldFunct3 w) (fieldOpcode w) = w := by
  have h1 : (fieldImmS w).extractLsb' 5 7 = w.extractLsb' 25 7 := by
    unfold fieldImmS
    rw [extract_append_high _ _ (by decide)]
    exact extract_self _
  have h2 : (fieldImmS w).extractLsb' 0 5 = w.extractLsb' 7 5 := by
    unfold fieldImmS
    rw [extract_append_low _ _ (by decide)]
    exact extract_self _
  unfold encodeS
  rw [h1, h2]
  exact encodeR_fields w

theorem encodeB_fields (w : InstWord) :
    encodeB (fieldImmB w) (fieldRs2 w) (fieldRs1 w) (fieldFunct3 w) (fieldOpcode w) = w := by
  have h12 : (fieldImmB w).extractLsb' 12 1 = w.extractLsb' 31 1 := by
    unfold fieldImmB
    rw [extract_append_high _ _ (by decide), extract_append_high _ _ (by decide), extract_append_high _ _ (by decide), extract_append_high _ _ (by decide)]
    exact extract_self _
  have h11 : (fieldImmB w).extractLsb' 11 1 = w.extractLsb' 7 1 := by
    unfold fieldImmB
    rw [extract_append_high _ _ (by decide), extract_append_high _ _ (by decide), extract_append_high _ _ (by decide), extract_append_low _ _ (by decide)]
    exact extract_self _
  have h5 : (fieldImmB w).extractLsb' 5 6 = w.extractLsb' 25 6 := by
    unfold fieldImmB
    rw [extract_append_high _ _ (by decide), extract_append_high _ _ (by decide), extract_append_low _ _ (by decide)]
    exact extract_self _
  have h1 : (fieldImmB w).extractLsb' 1 4 = w.extractLsb' 8 4 := by
    unfold fieldImmB
    rw [extract_append_high _ _ (by decide), extract_append_low _ _ (by decide)]
    exact extract_self _
  unfold encodeB fieldRs2 fieldRs1 fieldFunct3 fieldOpcode
  rw [h12, h5, h1, h11]
  have j0 : w.extractLsb' 31 1 ++ w.extractLsb' 25 6 = w.extractLsb' 25 7 := extract_join w 25 1 6
  have j1 : w.extractLsb' 25 7 ++ w.extractLsb' 20 5 = w.extractLsb' 20 12 := extract_join w 20 7 5
  have j2 : w.extractLsb' 20 12 ++ w.extractLsb' 15 5 = w.extractLsb' 15 17 := extract_join w 15 12 5
  have j3 : w.extractLsb' 15 17 ++ w.extractLsb' 12 3 = w.extractLsb' 12 20 := extract_join w 12 17 3
  have j4 : w.extractLsb' 12 20 ++ w.extractLsb' 8 4 = w.extractLsb' 8 24 := extract_join w 8 20 4
  have j5 : w.extractLsb' 8 24 ++ w.extractLsb' 7 1 = w.extractLsb' 7 25 := extract_join w 7 24 1
  have j6 : w.extractLsb' 7 25 ++ w.extractLsb' 0 7 = w.extractLsb' 0 32 := extract_join w 0 25 7
  rw [j0, j1, j2, j3, j4, j5, j6]
  exact extract_self w

/-! ### Masked words: the opcode and function fields alone -/

/-- The bitwise and of two concatenations of the same widths, part by part. -/
theorem append_and {a b : Nat} {x u p : BitVec a} {y v q : BitVec b} (hx : x &&& u = p) (hy : y &&& v = q) :
    (x ++ y) &&& (u ++ v) = p ++ q := by
  subst hx hy
  ext i hi
  simp only [BitVec.getElem_and, BitVec.getElem_append]
  split <;> rfl

theorem mask_opcode_funct3 (w : InstWord) :
    w &&& 0x0000707F#32 = encodeI 0#12 0#5 (fieldFunct3 w) 0#5 (fieldOpcode w) := by
  have hm : 0x0000707F#32 = encodeI 0#12 0#5 (BitVec.allOnes 3) 0#5 (BitVec.allOnes 7) := by decide
  conv_lhs => rw [← encodeI_fields w, hm]
  exact append_and (append_and (append_and (append_and BitVec.and_zero BitVec.and_zero) BitVec.and_allOnes) BitVec.and_zero) BitVec.and_allOnes

theorem mask_opcode_funct3_funct7 (w : InstWord) :
    w &&& 0xFE00707F#32 = encodeR (fieldFunct7 w) 0#5 0#5 (fieldFunct3 w) 0#5 (fieldOpcode w) := by
  have hm : 0xFE00707F#32 = encodeR (BitVec.allOnes 7) 0#5 0#5 (BitVec.allOnes 3) 0#5 (BitVec.allOnes 7) := by decide
  conv_lhs => rw [← encodeR_fields w, hm]
  exact append_and (append_and (append_and (append_and (append_and BitVec.and_allOnes BitVec.and_zero) BitVec.and_zero) BitVec.and_allOnes) BitVec.and_zero) BitVec.and_allOnes

theorem mask_opcode_funct3_funct6 (w : InstWord) :
    w &&& 0xFC00707F#32 = encodeShift6 (fieldFunct6 w) 0#6 0#5 (fieldFunct3 w) 0#5 (fieldOpcode w) := by
  have hm : 0xFC00707F#32 = encodeShift6 (BitVec.allOnes 6) 0#6 0#5 (BitVec.allOnes 3) 0#5 (BitVec.allOnes 7) := by decide
  conv_lhs => rw [← encodeShift6_fields w, hm]
  exact append_and (append_and (append_and (append_and (append_and BitVec.and_allOnes BitVec.and_zero) BitVec.and_zero) BitVec.and_allOnes) BitVec.and_zero) BitVec.and_allOnes

end Sys2Proof
end

