-- ==== Sys2Proof/Laws/Ops.lean ====
section
/-! SUPPORT. One lemma per shared operation of Machine/Ops.lean and Machine/Construct.lean, saying what it does. -/

namespace Sys2Proof.Machine

/-! ### The Memory -/

/-- What a byte reads after `MemWrite(a, n, v)` (R59). -/
theorem sparseRead_memWrite {m : Memory} (h : Memory.wf m = true) (a n : Nat) (v : Word) (b : Nat) :
    sparseRead (memWrite m a n v) b = if a ≤ b ∧ b < a + n then v.extractLsb' (8 * (b - a)) 8 else sparseRead m b := by
  suffices Memory.wf (memWrite m a n v) = true ∧
      sparseRead (memWrite m a n v) b = if a ≤ b ∧ b < a + n then v.extractLsb' (8 * (b - a)) 8 else sparseRead m b from
    this.2
  induction n with
  | zero => exact ⟨h, by rw [if_neg (by omega)]; rfl⟩
  | succ k ih =>
    refine ⟨sparseWf_sparseWrite ih.1, ?_⟩
    unfold memWrite
    rw [sparseRead_sparseWrite ih.1, ih.2]
    by_cases hb : b = a + k
    · subst hb
      rw [if_pos rfl, if_pos (by omega), Nat.add_sub_cancel_left]
    · rw [if_neg hb]
      by_cases hr : a ≤ b ∧ b < a + k
      · rw [if_pos hr, if_pos (by omega)]
      · rw [if_neg hr, if_neg (by omega)]

/-- `MemWrite` keeps the canonical form. -/
theorem memWrite_wf {m : Memory} (h : Memory.wf m = true) (a n : Nat) (v : Word) : Memory.wf (memWrite m a n v) = true := by
  induction n with
  | zero => exact h
  | succ k ih => exact sparseWf_sparseWrite ih

/-- Every address listed after `MemWrite` is one of its n addresses or was listed before. -/
theorem mem_memWrite {m : Memory} {a n : Nat} {v : Word} {c : Host.Cell} (h : c ∈ memWrite m a n v) :
    (a ≤ c.1 ∧ c.1 < a + n) ∨ c ∈ m := by
  induction n with
  | zero => exact .inr h
  | succ k ih =>
    rcases mem_sparseWrite h with h | h
    · exact .inl (by omega)
    · rcases ih h with h | h
      · exact .inl (by omega)
      · exact .inr h

/-- Bit i of `MemRead(a, n)` is bit i mod 8 of the byte at a + i / 8, and 0 from bit 8n on (R52). -/
theorem memRead_getLsbD (m : Memory) (a n i : Nat) (hi : i < 64) :
    (memRead m a n).getLsbD i = (decide (i < 8 * n) && (sparseRead m (a + i / 8)).getLsbD (i % 8)) := by
  induction n with
  | zero => simp [memRead]
  | succ k ih =>
    rw [memRead, BitVec.getLsbD_or, ih, BitVec.getLsbD_shiftLeft, BitVec.getLsbD_setWidth]
    by_cases h1 : i < 8 * k
    · have : i < 8 * (k + 1) := by omega
      simp [h1, this]
    · by_cases h2 : i < 8 * (k + 1)
      · have hd : i / 8 = k := by omega
        have hm : i - 8 * k = i % 8 := by omega
        have h64 : i % 8 < 64 := by omega
        simp [h1, h2, hi, hd, hm, h64]
      · have : 8 ≤ i - 8 * k := by omega
        simp [h1, h2, BitVec.getLsbD_of_ge, this]

/-- `MemRead` depends only on the bytes it reads. -/
theorem memRead_congr {m m' : Memory} {a n : Nat} (h : ∀ k, k < n → sparseRead m (a + k) = sparseRead m' (a + k)) :
    memRead m a n = memRead m' a n := by
  induction n with
  | zero => rfl
  | succ k ih => rw [memRead, memRead, ih fun j hj => h j (by omega), h k (by omega)]

/-- The canonical form after loading an image (R253). -/
theorem loadImage_wf {m : Memory} (h : Memory.wf m = true) (a : Nat) (image : List Byte) :
    Memory.wf (loadImage m a image) = true := by
  induction image generalizing m a with
  | nil => exact h
  | cons b rest ih => exact ih (sparseWf_sparseWrite h) (a + 1)

/-- Every address listed after loading an image is one of the image's or was listed before. -/
theorem mem_loadImage {m : Memory} {a : Nat} {image : List Byte} {c : Host.Cell} (h : c ∈ loadImage m a image) :
    (a ≤ c.1 ∧ c.1 < a + image.length) ∨ c ∈ m := by
  induction image generalizing m a with
  | nil => exact .inr h
  | cons b rest ih =>
    rcases ih h with h | h
    · simp only [List.length_cons]
      exact .inl (by omega)
    · rcases mem_sparseWrite h with h | h
      · simp only [List.length_cons]
        exact .inl (by omega)
      · exact .inr h

/-- What a byte reads after an image is loaded: the image's byte, and every other byte as before (R253). -/
theorem sparseRead_loadImage {m : Memory} (h : Memory.wf m = true) (a : Nat) (image : List Byte) (b : Nat) :
    sparseRead (loadImage m a image) b =
      if a ≤ b ∧ b < a + image.length then image.getD (b - a) 0#8 else sparseRead m b := by
  induction image generalizing m a with
  | nil =>
    rw [if_neg (by simp only [List.length_nil]; omega)]
    rfl
  | cons x rest ih =>
    rw [loadImage, ih (sparseWf_sparseWrite h), sparseRead_sparseWrite h]
    simp only [List.length_cons]
    by_cases hb : b = a
    · subst hb
      rw [if_neg (by omega), if_pos rfl, if_pos (by omega)]
      simp
    · by_cases hr : a + 1 ≤ b ∧ b < a + 1 + rest.length
      · rw [if_pos hr, if_pos (by omega), show b - a = (b - (a + 1)) + 1 by omega]
        rfl
      · rw [if_neg hr, if_neg hb, if_neg (by omega)]

/-- The block of an image that fits (R250): the only one `construct` gives. -/
theorem construct_some {p : Params} {initX : Vector Word 31} {image : List Byte} {s : State}
    (h : construct p initX image = some s) : image.length ≤ p.memSize ∧ s = constructed p initX image := by
  unfold construct at h
  split at h
  · exact ⟨‹_›, (Option.some.inj h).symm⟩
  · simp at h

/-- The Memory of a constructed block is canonical. -/
theorem constructed_mem_wf (p : Params) (initX : Vector Word 31) (image : List Byte) :
    Memory.wf (constructed p initX image).mem = true := loadImage_wf rfl _ _

/-- The Memory of the reset state is canonical. -/
theorem reset_mem_wf : Memory.wf State.reset.mem = true := rfl

/-! ### The window -/

theorem inWindow_iff (p : Params) (a n : Nat) :
    inWindow p a n = true ↔ p.memBase.toNat ≤ a ∧ a + n ≤ p.memBase.toNat + p.memSize := by
  simp [inWindow]

/-! ### The Bus: each operation as its two outcomes -/

theorem fetchByte_eq (s : State) (a : Word) :
    fetchByte s a = if inWindow s.params a.toNat 1 then .ok (s.byteAt a.toNat) else .error (.instructionAccessFault a) := rfl

theorem loadSigned_error {s : State} {a : Word} {n : Width} {e : Exn} (h : loadSigned s a n = .error e) :
    e = .loadAccessFault a ∧ inWindow s.params a.toNat (widthBytes n) = false := by
  unfold loadSigned at h
  split at h
  · cases h
  · cases h
    exact ⟨rfl, Bool.eq_false_iff.mpr ‹_›⟩

theorem loadUnsigned_error {s : State} {a : Word} {n : Width} {e : Exn} (h : loadUnsigned s a n = .error e) :
    e = .loadAccessFault a ∧ inWindow s.params a.toNat (widthBytes n) = false := by
  unfold loadUnsigned at h
  split at h
  · cases h
  · cases h
    exact ⟨rfl, Bool.eq_false_iff.mpr ‹_›⟩

theorem busStore_ok {s t : State} {a : Word} {n : Width} {v : Word} (h : busStore s a n v = .ok t) :
    inWindow s.params a.toNat (widthBytes n) = true ∧ t = { s with mem := memWrite s.mem a.toNat (widthBytes n) v } := by
  unfold busStore at h
  split at h
  · cases h
    exact ⟨‹_›, rfl⟩
  · cases h

/-- A store keeps the Memory's canonical form. -/
theorem busStore_mem_wf {s t : State} {a : Word} {n : Width} {v : Word} (hm : Memory.wf s.mem = true)
    (h : busStore s a n v = .ok t) : Memory.wf t.mem = true := by
  obtain ⟨-, rfl⟩ := busStore_ok h
  exact memWrite_wf hm _ _ _

theorem busStore_error {s : State} {a : Word} {n : Width} {v : Word} {e : Exn} (h : busStore s a n v = .error e) :
    e = .storeAMOAccessFault a ∧ inWindow s.params a.toNat (widthBytes n) = false := by
  unfold busStore at h
  split at h
  · cases h
  · cases h
    exact ⟨rfl, Bool.eq_false_iff.mpr ‹_›⟩

/-! ### Fetch -/

/-- A fetch whose four bytes are in the window gives their word. -/
theorem fetchWord_ok {s : State} (h0 : inWindow s.params s.pc.toNat 1 = true)
    (h1 : inWindow s.params (s.pc + 1#64).toNat 1 = true) (h2 : inWindow s.params (s.pc + 2#64).toNat 1 = true)
    (h3 : inWindow s.params (s.pc + 3#64).toNat 1 = true) :
    fetchWord s = .ok (leWord (s.byteAt s.pc.toNat) (s.byteAt (s.pc + 1#64).toNat) (s.byteAt (s.pc + 2#64).toNat)
      (s.byteAt (s.pc + 3#64).toNat)) := by
  simp only [fetchWord, fetchByte_eq, h0, h1, h2, h3, if_true]

/-- A byte fetch that faults carries its own address (R56). -/
theorem fetchByte_error {s : State} {a : Word} {e : Exn} (h : fetchByte s a = .error e) :
    e = .instructionAccessFault a ∧ inWindow s.params a.toNat 1 = false := by
  rw [fetchByte_eq] at h
  split at h
  · cases h
  · cases h
    exact ⟨rfl, Bool.eq_false_iff.mpr ‹_›⟩

/-- A fetch that faults raises InstructionAccessFault at the address of one of its four bytes, out of the window (R110). -/
theorem fetchWord_error {s : State} {e : Exn} (h : fetchWord s = .error e) :
    ∃ k, k < 4 ∧ e = .instructionAccessFault (s.pc + BitVec.ofNat 64 k) ∧
      inWindow s.params (s.pc + BitVec.ofNat 64 k).toNat 1 = false := by
  unfold fetchWord at h
  split at h
  · cases h
    have := fetchByte_error ‹_›
    exact ⟨0, by omega, by simpa using this⟩
  · split at h
    · cases h
      exact ⟨1, by omega, fetchByte_error ‹_›⟩
    · split at h
      · cases h
        exact ⟨2, by omega, fetchByte_error ‹_›⟩
      · split at h
        · cases h
          exact ⟨3, by omega, fetchByte_error ‹_›⟩
        · cases h

/-! ### Placing a word where the next fetch reads it (log 7) -/

/-- Placing a byte keeps the Memory's canonical form. -/
theorem placeByte_mem_wf {s : State} (h : Memory.wf s.mem = true) (a : Word) (b : Byte) :
    Memory.wf (placeByte s a b).mem = true := by
  unfold placeByte
  split
  · exact sparseWf_sparseWrite h
  · exact h

/-- Placing a word keeps the Memory's canonical form. -/
theorem placeWord_mem_wf {s : State} (h : Memory.wf s.mem = true) (inst : InstWord) :
    Memory.wf (placeWord s inst).mem = true :=
  placeByte_mem_wf (placeByte_mem_wf (placeByte_mem_wf (placeByte_mem_wf h _ _) _ _) _ _) _ _

/-- Placing a word whose four addresses are in the window writes its four bytes and sets the status to Running. -/
theorem placeWord_eq {s : State} (h0 : inWindow s.params s.pc.toNat 1 = true)
    (h1 : inWindow s.params (s.pc + 1#64).toNat 1 = true) (h2 : inWindow s.params (s.pc + 2#64).toNat 1 = true)
    (h3 : inWindow s.params (s.pc + 3#64).toNat 1 = true) (inst : InstWord) :
    placeWord s inst =
      { s with
        mem := sparseWrite (sparseWrite (sparseWrite (sparseWrite s.mem s.pc.toNat (inst.extractLsb' 0 8))
          (s.pc + 1#64).toNat (inst.extractLsb' 8 8)) (s.pc + 2#64).toNat (inst.extractLsb' 16 8))
          (s.pc + 3#64).toNat (inst.extractLsb' 24 8)
        status := .running } := by
  have e (m : Memory) (a : Word) (b : Byte) (h : inWindow s.params a.toNat 1 = true) :
      placeByte { s with mem := m } a b = { s with mem := sparseWrite m a.toNat b } := if_pos h
  have e0 := e s.mem s.pc (inst.extractLsb' 0 8) h0
  unfold placeWord
  change placeByte s _ _ = _ at e0
  simp only
  rw [e0, e _ _ _ h1, e _ _ _ h2, e _ _ _ h3]

/-! ### Commit, halt -/

@[simp] theorem commitReg_eq (s : State) (rd : RegIdx) (v : Word) :
    commitReg s rd v = .next ((s.setReg rd v).setPc s.pcPlus4) := rfl

@[simp] theorem commitPc_eq (s : State) (npc : Word) : commitPc s npc = .next (s.setPc npc) := rfl

@[simp] theorem takeException_eq (s : State) (e : Exn) : takeException s e = .next (s.halt (.trap e)) := rfl

@[simp] theorem haltZeroWord_eq (s : State) : haltZeroWord s = .next (s.halt (.zeroWord s.pc)) := rfl

@[simp] theorem takeIllegal_eq (s : State) (inst : InstWord) :
    takeIllegal s inst = .next (s.halt (.trap (.illegalInstruction (zext32 inst)))) := rfl

end Sys2Proof.Machine
end

