-- ==== Sys2Proof/Laws/Exec.lean ====
section
/-! SUPPORT. What an instruction can do, said once: every instruction answers a next state, of one of four shapes. -/

namespace Sys2Proof.Machine

/-- The four shapes of an instruction's effect (R112, R114, R118): a register result, a store, a next pc, or the halt of one of
the three exceptions an instruction raises (R225). -/
inductive Effect (s : State) : State → Prop where
  | reg (rd : RegIdx) (v : Word) : Effect s ((s.setReg rd v).setPc s.pcPlus4)
  | store (a : Word) (n : Width) (v : Word) (h : inWindow s.params a.toNat (widthBytes n) = true) :
      Effect s (State.setPc { s with mem := memWrite s.mem a.toNat (widthBytes n) v } s.pcPlus4)
  | jump (npc : Word) (h : npc = s.pcPlus4 ∨ misaligned npc = false) : Effect s (s.setPc npc)
  | trap (e : Exn) (h : excCode e = 0 ∨ excCode e = 5 ∨ excCode e = 7) : Effect s (s.halt (.trap e))

/-- A branch ends in a jump or a misaligned-target halt (R131). -/
theorem branchIf_effect (s : State) (c : Bool) (imm : BitVec 13) : ∃ t, branchIf s c imm = .next t ∧ Effect s t := by
  unfold branchIf
  split
  · split
    · exact ⟨_, rfl, .trap _ (.inl rfl)⟩
    · exact ⟨_, rfl, .jump _ (.inr (Bool.eq_false_iff.mpr ‹_›))⟩
  · exact ⟨_, rfl, .jump _ (.inl rfl)⟩

/-- A signed load ends in a register result or a LoadAccessFault halt (R142). -/
theorem loadS_effect (s : State) (n : Width) (rd rs1 : RegIdx) (imm : BitVec 12) :
    ∃ t, loadS s n rd rs1 imm = .next t ∧ Effect s t := by
  unfold loadS commitLoad
  split
  · exact ⟨_, rfl, .reg _ _⟩
  · obtain ⟨rfl, -⟩ := loadSigned_error ‹_›
    exact ⟨_, rfl, .trap _ (.inr (.inl rfl))⟩

/-- An unsigned load ends in a register result or a LoadAccessFault halt (R142). -/
theorem loadU_effect (s : State) (n : Width) (rd rs1 : RegIdx) (imm : BitVec 12) :
    ∃ t, loadU s n rd rs1 imm = .next t ∧ Effect s t := by
  unfold loadU commitLoad
  split
  · exact ⟨_, rfl, .reg _ _⟩
  · obtain ⟨rfl, -⟩ := loadUnsigned_error ‹_›
    exact ⟨_, rfl, .trap _ (.inr (.inl rfl))⟩

/-- A store ends in its write or a StoreAMOAccessFault halt (R152). -/
theorem storeN_effect (s : State) (n : Width) (rs1 rs2 : RegIdx) (imm : BitVec 12) :
    ∃ t, storeN s n rs1 rs2 imm = .next t ∧ Effect s t := by
  unfold storeN
  split
  · obtain ⟨hw, rfl⟩ := busStore_ok ‹_›
    exact ⟨_, rfl, .store _ _ _ hw⟩
  · obtain ⟨rfl, -⟩ := busStore_error ‹_›
    exact ⟨_, rfl, .trap _ (.inr (.inr rfl))⟩

/-- An instruction that commits a register result. -/
theorem commitReg_effect (s : State) (rd : RegIdx) (v : Word) : ∃ t, commitReg s rd v = .next t ∧ Effect s t :=
  ⟨_, rfl, .reg _ _⟩

/-- Every instruction answers a next state, of one of the four shapes. -/
theorem exec_effect (i : Instr) (s : State) : ∃ t, exec i s = .next t ∧ Effect s t := by
  cases i
  all_goals first
    | exact branchIf_effect _ _ _
    | exact loadS_effect _ _ _ _ _
    | exact loadU_effect _ _ _ _ _
    | exact storeN_effect _ _ _ _ _
    | exact commitReg_effect _ _ _

/-- The same, from the state it answers. -/
theorem effect_of_exec {i : Instr} {s t : State} (h : exec i s = .next t) : Effect s t := by
  obtain ⟨u, hu, he⟩ := exec_effect i s
  rw [hu] at h
  cases h
  exact he

end Sys2Proof.Machine
end

