-- ==== Sys2Proof/Laws/Operands.lean ====
section
/-! SUPPORT. What the operand functions of the word forms give, as numbers, and the two cases of a register word shift. -/

namespace Sys2Proof.Machine

@[simp] theorem low32_toNat (v : Word) : (low32 v).toNat = v.toNat % 2 ^ 32 := by simp [low32]

@[simp] theorem regShamt_toNat (v : Word) : (regShamt v).toNat = v.toNat % 64 := by simp [regShamt]

/-- Words that agree modulo 2^32 have the same low word. -/
theorem low32_congr {a b : Word} (h : a.toNat % 2 ^ 32 = b.toNat % 2 ^ 32) : low32 a = low32 b :=
  BitVec.eq_of_toNat_eq (by simpa using h)

/-- Words that agree modulo 2^32 give the same register shift amount. -/
theorem regShamt_congr {a b : Word} (h : a.toNat % 2 ^ 32 = b.toNat % 2 ^ 32) : regShamt a = regShamt b :=
  BitVec.eq_of_toNat_eq (by
    simp only [regShamt_toNat]
    omega)

/-- The low word of a sum depends only on the low words of its operands (R182, R212). -/
theorem low32_add (a b : Word) : low32 (a + b) = low32 a + low32 b :=
  BitVec.eq_of_toNat_eq (by
    simp only [low32_toNat, BitVec.toNat_add]
    omega)

/-- The low word of a difference depends only on the low words of its operands (R183). -/
theorem low32_sub (a b : Word) : low32 (a - b) = low32 a - low32 b :=
  BitVec.eq_of_toNat_eq (by
    simp only [low32_toNat, BitVec.toNat_sub]
    omega)

/-- `sext_32` keeps the signed value. -/
@[simp] theorem sext32_toInt (r : BitVec 32) : (sext32 r).toInt = r.toInt := BitVec.toInt_signExtend_of_le (by decide)

/-- shamt[5] = 0 exactly when the amount is below 32 (R187). -/
theorem regShamt_bit5 (v : Word) : (regShamt v).extractLsb' 5 1 = 0#1 ↔ v.toNat % 64 < 32 := by
  rw [← BitVec.toNat_inj, BitVec.extractLsb'_toNat, regShamt_toNat, Nat.shiftRight_eq_div_pow]
  simp only [BitVec.toNat_ofNat]
  omega

/-- A register word shift by 0 to 31 is the 32-bit shift of the low word (R184 to R187). -/
theorem wordShift_below {op : WordShiftOp} {g : BitVec 32 → BitVec 6 → BitVec 32} {a b : Word} (h : b.toNat % 64 < 32) :
    wordShift op g a b = g (low32 a) (regShamt b) := if_pos ((regShamt_bit5 b).2 h)

/-- A register word shift by 32 to 63 is the free value of the low word (R187, R181, log 2). -/
theorem wordShift_from {op : WordShiftOp} {g : BitVec 32 → BitVec 6 → BitVec 32} {a b : Word} (h : 32 ≤ b.toNat % 64) :
    wordShift op g a b = Config.wordShiftHi op (low32 a) (regShamt b) :=
  if_neg fun h' => by
    have := (regShamt_bit5 b).1 h'
    omega

/-- A register word shift depends only on the low word of its operand and on the amount (R181, decision D31). -/
theorem wordShift_congr {op : WordShiftOp} {g : BitVec 32 → BitVec 6 → BitVec 32} {a a' b b' : Word}
    (ha : low32 a' = low32 a) (hb : regShamt b' = regShamt b) : wordShift op g a' b' = wordShift op g a b := by
  simp only [wordShift, ha, hb]

end Sys2Proof.Machine
end

