-- ==== Sys2Proof/Laws/PerInstr.lean ====
section
/-! SUPPORT. Statements made for every instruction, one lemma per constructor. The family `OpcodeRow`: the encoded word of an
instruction matches its row of spec/opcode_table.json, which is written apart from the encoder. -/

namespace Sys2Proof.Laws.OpcodeRow

/-- The encoded word under the row's mask is the row's match. -/
def Statement (i : Instr) : Prop := encode i &&& (opcodeRow i).1 = (opcodeRow i).2

theorem beq (rs1 rs2 : RegIdx) (imm : BitVec 13) : Statement (.beq rs1 rs2 imm) := by
  refine (mask_opcode_funct3 _).trans ?_
  simp only [encode, fieldFunct3_encodeB, fieldOpcode_encodeB]
  rfl

theorem bne (rs1 rs2 : RegIdx) (imm : BitVec 13) : Statement (.bne rs1 rs2 imm) := by
  refine (mask_opcode_funct3 _).trans ?_
  simp only [encode, fieldFunct3_encodeB, fieldOpcode_encodeB]
  rfl

theorem blt (rs1 rs2 : RegIdx) (imm : BitVec 13) : Statement (.blt rs1 rs2 imm) := by
  refine (mask_opcode_funct3 _).trans ?_
  simp only [encode, fieldFunct3_encodeB, fieldOpcode_encodeB]
  rfl

theorem bge (rs1 rs2 : RegIdx) (imm : BitVec 13) : Statement (.bge rs1 rs2 imm) := by
  refine (mask_opcode_funct3 _).trans ?_
  simp only [encode, fieldFunct3_encodeB, fieldOpcode_encodeB]
  rfl

theorem bltu (rs1 rs2 : RegIdx) (imm : BitVec 13) : Statement (.bltu rs1 rs2 imm) := by
  refine (mask_opcode_funct3 _).trans ?_
  simp only [encode, fieldFunct3_encodeB, fieldOpcode_encodeB]
  rfl

theorem bgeu (rs1 rs2 : RegIdx) (imm : BitVec 13) : Statement (.bgeu rs1 rs2 imm) := by
  refine (mask_opcode_funct3 _).trans ?_
  simp only [encode, fieldFunct3_encodeB, fieldOpcode_encodeB]
  rfl

theorem lb (rd rs1 : RegIdx) (imm : BitVec 12) : Statement (.lb rd rs1 imm) := by
  refine (mask_opcode_funct3 _).trans ?_
  simp only [encode, fieldFunct3_encodeI, fieldOpcode_encodeI]
  rfl

theorem lh (rd rs1 : RegIdx) (imm : BitVec 12) : Statement (.lh rd rs1 imm) := by
  refine (mask_opcode_funct3 _).trans ?_
  simp only [encode, fieldFunct3_encodeI, fieldOpcode_encodeI]
  rfl

theorem lw (rd rs1 : RegIdx) (imm : BitVec 12) : Statement (.lw rd rs1 imm) := by
  refine (mask_opcode_funct3 _).trans ?_
  simp only [encode, fieldFunct3_encodeI, fieldOpcode_encodeI]
  rfl

theorem ld (rd rs1 : RegIdx) (imm : BitVec 12) : Statement (.ld rd rs1 imm) := by
  refine (mask_opcode_funct3 _).trans ?_
  simp only [encode, fieldFunct3_encodeI, fieldOpcode_encodeI]
  rfl

theorem lbu (rd rs1 : RegIdx) (imm : BitVec 12) : Statement (.lbu rd rs1 imm) := by
  refine (mask_opcode_funct3 _).trans ?_
  simp only [encode, fieldFunct3_encodeI, fieldOpcode_encodeI]
  rfl

theorem lhu (rd rs1 : RegIdx) (imm : BitVec 12) : Statement (.lhu rd rs1 imm) := by
  refine (mask_opcode_funct3 _).trans ?_
  simp only [encode, fieldFunct3_encodeI, fieldOpcode_encodeI]
  rfl

theorem lwu (rd rs1 : RegIdx) (imm : BitVec 12) : Statement (.lwu rd rs1 imm) := by
  refine (mask_opcode_funct3 _).trans ?_
  simp only [encode, fieldFunct3_encodeI, fieldOpcode_encodeI]
  rfl

theorem sb (rs1 rs2 : RegIdx) (imm : BitVec 12) : Statement (.sb rs1 rs2 imm) := by
  refine (mask_opcode_funct3 _).trans ?_
  simp only [encode, fieldFunct3_encodeS, fieldOpcode_encodeS]
  rfl

theorem sh (rs1 rs2 : RegIdx) (imm : BitVec 12) : Statement (.sh rs1 rs2 imm) := by
  refine (mask_opcode_funct3 _).trans ?_
  simp only [encode, fieldFunct3_encodeS, fieldOpcode_encodeS]
  rfl

theorem sw (rs1 rs2 : RegIdx) (imm : BitVec 12) : Statement (.sw rs1 rs2 imm) := by
  refine (mask_opcode_funct3 _).trans ?_
  simp only [encode, fieldFunct3_encodeS, fieldOpcode_encodeS]
  rfl

theorem sd (rs1 rs2 : RegIdx) (imm : BitVec 12) : Statement (.sd rs1 rs2 imm) := by
  refine (mask_opcode_funct3 _).trans ?_
  simp only [encode, fieldFunct3_encodeS, fieldOpcode_encodeS]
  rfl

theorem add (rd rs1 rs2 : RegIdx) : Statement (.add rd rs1 rs2) := by
  refine (mask_opcode_funct3_funct7 _).trans ?_
  simp only [encode, fieldFunct3_encodeR, fieldOpcode_encodeR, fieldFunct7_encodeR]
  rfl

theorem sub (rd rs1 rs2 : RegIdx) : Statement (.sub rd rs1 rs2) := by
  refine (mask_opcode_funct3_funct7 _).trans ?_
  simp only [encode, fieldFunct3_encodeR, fieldOpcode_encodeR, fieldFunct7_encodeR]
  rfl

theorem sll (rd rs1 rs2 : RegIdx) : Statement (.sll rd rs1 rs2) := by
  refine (mask_opcode_funct3_funct7 _).trans ?_
  simp only [encode, fieldFunct3_encodeR, fieldOpcode_encodeR, fieldFunct7_encodeR]
  rfl

theorem slt (rd rs1 rs2 : RegIdx) : Statement (.slt rd rs1 rs2) := by
  refine (mask_opcode_funct3_funct7 _).trans ?_
  simp only [encode, fieldFunct3_encodeR, fieldOpcode_encodeR, fieldFunct7_encodeR]
  rfl

theorem sltu (rd rs1 rs2 : RegIdx) : Statement (.sltu rd rs1 rs2) := by
  refine (mask_opcode_funct3_funct7 _).trans ?_
  simp only [encode, fieldFunct3_encodeR, fieldOpcode_encodeR, fieldFunct7_encodeR]
  rfl

theorem xor (rd rs1 rs2 : RegIdx) : Statement (.xor rd rs1 rs2) := by
  refine (mask_opcode_funct3_funct7 _).trans ?_
  simp only [encode, fieldFunct3_encodeR, fieldOpcode_encodeR, fieldFunct7_encodeR]
  rfl

theorem srl (rd rs1 rs2 : RegIdx) : Statement (.srl rd rs1 rs2) := by
  refine (mask_opcode_funct3_funct7 _).trans ?_
  simp only [encode, fieldFunct3_encodeR, fieldOpcode_encodeR, fieldFunct7_encodeR]
  rfl

theorem sra (rd rs1 rs2 : RegIdx) : Statement (.sra rd rs1 rs2) := by
  refine (mask_opcode_funct3_funct7 _).trans ?_
  simp only [encode, fieldFunct3_encodeR, fieldOpcode_encodeR, fieldFunct7_encodeR]
  rfl

theorem or (rd rs1 rs2 : RegIdx) : Statement (.or rd rs1 rs2) := by
  refine (mask_opcode_funct3_funct7 _).trans ?_
  simp only [encode, fieldFunct3_encodeR, fieldOpcode_encodeR, fieldFunct7_encodeR]
  rfl

theorem and (rd rs1 rs2 : RegIdx) : Statement (.and rd rs1 rs2) := by
  refine (mask_opcode_funct3_funct7 _).trans ?_
  simp only [encode, fieldFunct3_encodeR, fieldOpcode_encodeR, fieldFunct7_encodeR]
  rfl

theorem addw (rd rs1 rs2 : RegIdx) : Statement (.addw rd rs1 rs2) := by
  refine (mask_opcode_funct3_funct7 _).trans ?_
  simp only [encode, fieldFunct3_encodeR, fieldOpcode_encodeR, fieldFunct7_encodeR]
  rfl

theorem subw (rd rs1 rs2 : RegIdx) : Statement (.subw rd rs1 rs2) := by
  refine (mask_opcode_funct3_funct7 _).trans ?_
  simp only [encode, fieldFunct3_encodeR, fieldOpcode_encodeR, fieldFunct7_encodeR]
  rfl

theorem sllw (rd rs1 rs2 : RegIdx) : Statement (.sllw rd rs1 rs2) := by
  refine (mask_opcode_funct3_funct7 _).trans ?_
  simp only [encode, fieldFunct3_encodeR, fieldOpcode_encodeR, fieldFunct7_encodeR]
  rfl

theorem srlw (rd rs1 rs2 : RegIdx) : Statement (.srlw rd rs1 rs2) := by
  refine (mask_opcode_funct3_funct7 _).trans ?_
  simp only [encode, fieldFunct3_encodeR, fieldOpcode_encodeR, fieldFunct7_encodeR]
  rfl

theorem sraw (rd rs1 rs2 : RegIdx) : Statement (.sraw rd rs1 rs2) := by
  refine (mask_opcode_funct3_funct7 _).trans ?_
  simp only [encode, fieldFunct3_encodeR, fieldOpcode_encodeR, fieldFunct7_encodeR]
  rfl

theorem addi (rd rs1 : RegIdx) (imm : BitVec 12) : Statement (.addi rd rs1 imm) := by
  refine (mask_opcode_funct3 _).trans ?_
  simp only [encode, fieldFunct3_encodeI, fieldOpcode_encodeI]
  rfl

theorem slti (rd rs1 : RegIdx) (imm : BitVec 12) : Statement (.slti rd rs1 imm) := by
  refine (mask_opcode_funct3 _).trans ?_
  simp only [encode, fieldFunct3_encodeI, fieldOpcode_encodeI]
  rfl

theorem sltiu (rd rs1 : RegIdx) (imm : BitVec 12) : Statement (.sltiu rd rs1 imm) := by
  refine (mask_opcode_funct3 _).trans ?_
  simp only [encode, fieldFunct3_encodeI, fieldOpcode_encodeI]
  rfl

theorem xori (rd rs1 : RegIdx) (imm : BitVec 12) : Statement (.xori rd rs1 imm) := by
  refine (mask_opcode_funct3 _).trans ?_
  simp only [encode, fieldFunct3_encodeI, fieldOpcode_encodeI]
  rfl

theorem ori (rd rs1 : RegIdx) (imm : BitVec 12) : Statement (.ori rd rs1 imm) := by
  refine (mask_opcode_funct3 _).trans ?_
  simp only [encode, fieldFunct3_encodeI, fieldOpcode_encodeI]
  rfl

theorem andi (rd rs1 : RegIdx) (imm : BitVec 12) : Statement (.andi rd rs1 imm) := by
  refine (mask_opcode_funct3 _).trans ?_
  simp only [encode, fieldFunct3_encodeI, fieldOpcode_encodeI]
  rfl

theorem slli (rd rs1 : RegIdx) (shamt : BitVec 6) : Statement (.slli rd rs1 shamt) := by
  refine (mask_opcode_funct3_funct6 _).trans ?_
  simp only [encode, fieldFunct3_encodeShift6, fieldOpcode_encodeShift6, fieldFunct6_encodeShift6]
  rfl

theorem srli (rd rs1 : RegIdx) (shamt : BitVec 6) : Statement (.srli rd rs1 shamt) := by
  refine (mask_opcode_funct3_funct6 _).trans ?_
  simp only [encode, fieldFunct3_encodeShift6, fieldOpcode_encodeShift6, fieldFunct6_encodeShift6]
  rfl

theorem srai (rd rs1 : RegIdx) (shamt : BitVec 6) : Statement (.srai rd rs1 shamt) := by
  refine (mask_opcode_funct3_funct6 _).trans ?_
  simp only [encode, fieldFunct3_encodeShift6, fieldOpcode_encodeShift6, fieldFunct6_encodeShift6]
  rfl

theorem addiw (rd rs1 : RegIdx) (imm : BitVec 12) : Statement (.addiw rd rs1 imm) := by
  refine (mask_opcode_funct3 _).trans ?_
  simp only [encode, fieldFunct3_encodeI, fieldOpcode_encodeI]
  rfl

theorem slliw (rd rs1 : RegIdx) (shamt : BitVec 5) : Statement (.slliw rd rs1 shamt) := by
  refine (mask_opcode_funct3_funct7 _).trans ?_
  simp only [encode, fieldFunct3_encodeShift5, fieldOpcode_encodeShift5, fieldFunct7_encodeShift5]
  rfl

theorem srliw (rd rs1 : RegIdx) (shamt : BitVec 5) : Statement (.srliw rd rs1 shamt) := by
  refine (mask_opcode_funct3_funct7 _).trans ?_
  simp only [encode, fieldFunct3_encodeShift5, fieldOpcode_encodeShift5, fieldFunct7_encodeShift5]
  rfl

theorem sraiw (rd rs1 : RegIdx) (shamt : BitVec 5) : Statement (.sraiw rd rs1 shamt) := by
  refine (mask_opcode_funct3_funct7 _).trans ?_
  simp only [encode, fieldFunct3_encodeShift5, fieldOpcode_encodeShift5, fieldFunct7_encodeShift5]
  rfl

end Sys2Proof.Laws.OpcodeRow
end

