-- ==== Sys2Proof/Laws/Step.lean ====
section
/-! SUPPORT. What one step does, said once: the cases of R115. -/

namespace Sys2Proof.Machine

/-- A halted block steps to itself (R115). -/
theorem step_halted {s : State} {r : HaltReason} (h : s.status = .halted r) : step s = .next s := by
  unfold step
  rw [h]

/-- A running block whose fetch faults halts with that exception (R110, R115). -/
theorem step_fetch_error {s : State} {e : Exn} (hs : s.status = .running) (hf : fetchWord s = .error e) :
    step s = .next (s.halt (.trap e)) := by
  unfold step
  rw [hs, hf]
  rfl

/-- A running block that fetches the zero word halts on it (R111). -/
theorem step_zero_word {s : State} (hs : s.status = .running) (hf : fetchWord s = .ok 0#32) :
    step s = .next (s.halt (.zeroWord s.pc)) := by
  unfold step
  rw [hs, hf]
  rfl

/-- A running block that fetches a non-zero word that does not decode takes IllegalInstruction (R96). -/
theorem step_illegal {s : State} {w : InstWord} {r : DecodeReject} (hs : s.status = .running) (hf : fetchWord s = .ok w)
    (hw : w ≠ 0#32) (hd : decodeWord w = .error r) :
    step s = .next (s.halt (.trap (.illegalInstruction (zext32 w)))) := by
  unfold step
  rw [hs, hf]
  simp [isZeroWord, hw, hd]

/-- The zero word does not decode (R100). -/
theorem decodeWord_zero : decodeWord 0#32 = .error .unknownOpcode := by decide

/-- A running block that fetches a word that decodes runs the instruction (R112). -/
theorem step_exec {s : State} {w : InstWord} {i : Instr} (hs : s.status = .running) (hf : fetchWord s = .ok w)
    (hd : decodeWord w = .ok i) : step s = exec i s := by
  have hw : w ≠ 0#32 := by
    rintro rfl
    rw [decodeWord_zero] at hd
    cases hd
  unfold step
  rw [hs, hf]
  simp [isZeroWord, hw, hd]

/-- The cases of a step (R115): nothing on a halted block, and on a running one the fetch fault, the zero word, the illegal
word, or the decoded instruction. -/
inductive StepCase (s : State) : State → Prop where
  | halted (r : HaltReason) (hs : s.status = .halted r) : StepCase s s
  | fetchFault (e : Exn) (hs : s.status = .running) (hf : fetchWord s = .error e) : StepCase s (s.halt (.trap e))
  | zeroWord (hs : s.status = .running) (hf : fetchWord s = .ok 0#32) : StepCase s (s.halt (.zeroWord s.pc))
  | illegal (w : InstWord) (r : DecodeReject) (hs : s.status = .running) (hf : fetchWord s = .ok w) (hw : w ≠ 0#32)
      (hd : decodeWord w = .error r) : StepCase s (s.halt (.trap (.illegalInstruction (zext32 w))))
  | exec (w : InstWord) (i : Instr) (t : State) (hs : s.status = .running) (hf : fetchWord s = .ok w)
      (hd : decodeWord w = .ok i) (he : Sys2Proof.Machine.exec i s = .next t) : StepCase s t

/-- Every step is one of the cases. -/
theorem step_case (s : State) : ∃ t, step s = .next t ∧ StepCase s t := by
  rcases hs : s.status with _ | r
  · rcases hf : fetchWord s with e | w
    · exact ⟨_, step_fetch_error hs hf, .fetchFault e hs hf⟩
    · by_cases hw : w = 0#32
      · subst hw
        exact ⟨_, step_zero_word hs hf, .zeroWord hs hf⟩
      · rcases hd : decodeWord w with r | i
        · exact ⟨_, step_illegal hs hf hw hd, .illegal w r hs hf hw hd⟩
        · obtain ⟨t, ht, -⟩ := exec_effect i s
          exact ⟨t, by rw [step_exec hs hf hd, ht], .exec w i t hs hf hd ht⟩
  · exact ⟨s, step_halted hs, .halted r hs⟩

/-- The same, from the state it answers. -/
theorem case_of_step {s t : State} (h : step s = .next t) : StepCase s t := by
  obtain ⟨u, hu, hc⟩ := step_case s
  rw [hu] at h
  cases h
  exact hc

/-- A run of k + 1 steps is the run of k steps from the state the first step answers. -/
theorem run_succ {s t : State} (h : step s = .next t) (k : Nat) :
    Host.Core.run Sys2Proof.core (k + 1) s = Host.Core.run Sys2Proof.core k t := by
  have e : Sys2Proof.core.step s = .next t := h
  simp only [Host.Core.run]
  rw [e]

end Sys2Proof.Machine
end

