-- ==== Sys2Proof/Tests/Slice0.lean ====
section
/-! SUPPORT. Tests of the model, and for every statement with hypotheses a witness that meets them. Every expected word and
result is a row of spec/95_test_vectors.md or a worked example of the rule named. A test runs one step. -/

namespace Sys2Proof.Tests

open Sys2Proof.Machine

/-! ### Ill-formed terms are refused, words decode, other words are rejected -/

/-- Each branch refuses an odd offset (R84). -/
theorem test_wellFormed_refuses_odd_offsets :
    (Instr.beq 1#5 2#5 1#13).wellFormed = false ∧ (Instr.bne 1#5 2#5 3#13).wellFormed = false ∧
    (Instr.blt 1#5 2#5 (-1#13)).wellFormed = false ∧ (Instr.bge 1#5 2#5 4095#13).wellFormed = false ∧
    (Instr.bltu 1#5 2#5 9#13).wellFormed = false ∧ (Instr.bgeu 1#5 2#5 (-4095#13)).wellFormed = false := by decide

/-- An odd offset does not survive the round trip: the word has no bit for it. -/
theorem test_odd_offset_has_no_word : decodeWord (encode (.beq 1#5 2#5 9#13)) = .ok (.beq 1#5 2#5 8#13) := by decide

theorem test_decode_branch :
    decodeWord 0x00208463#32 = .ok (.beq 1#5 2#5 8#13) ∧ decodeWord 0xFE029CE3#32 = .ok (.bne 5#5 0#5 (-8#13)) ∧
    decodeWord 0x0020C863#32 = .ok (.blt 1#5 2#5 16#13) ∧ decodeWord 0x0020D863#32 = .ok (.bge 1#5 2#5 16#13) ∧
    decodeWord 0x0020E863#32 = .ok (.bltu 1#5 2#5 16#13) ∧ decodeWord 0x7E007E63#32 = .ok (.bgeu 0#5 0#5 2044#13) ∧
    decodeWord 0x7E000FE3#32 = .ok (.beq 0#5 0#5 4094#13) ∧ decodeWord 0x80000063#32 = .ok (.beq 0#5 0#5 (-4096#13)) := by
  decide

theorem test_decode_load :
    decodeWord 0xFFF30283#32 = .ok (.lb 5#5 6#5 (-1#12)) ∧ decodeWord 0x00731283#32 = .ok (.lh 5#5 6#5 7#12) ∧
    decodeWord 0x00132283#32 = .ok (.lw 5#5 6#5 1#12) ∧ decodeWord 0x00033283#32 = .ok (.ld 5#5 6#5 0#12) ∧
    decodeWord 0x00034003#32 = .ok (.lbu 0#5 6#5 0#12) ∧ decodeWord 0x7FF35283#32 = .ok (.lhu 5#5 6#5 2047#12) ∧
    decodeWord 0x10036383#32 = .ok (.lwu 7#5 6#5 256#12) := by decide

theorem test_decode_store :
    decodeWord 0x10530023#32 = .ok (.sb 6#5 5#5 256#12) ∧ decodeWord 0xFE531FA3#32 = .ok (.sh 6#5 5#5 (-1#12)) ∧
    decodeWord 0x005321A3#32 = .ok (.sw 6#5 5#5 3#12) ∧ decodeWord 0xFE533C23#32 = .ok (.sd 6#5 5#5 (-8#12)) := by decide

theorem test_decode_op :
    decodeWord 0x01DF0FB3#32 = .ok (.add 31#5 30#5 29#5) ∧ decodeWord 0x41DF0FB3#32 = .ok (.sub 31#5 30#5 29#5) ∧
    decodeWord 0x002091B3#32 = .ok (.sll 3#5 1#5 2#5) ∧ decodeWord 0x0020A1B3#32 = .ok (.slt 3#5 1#5 2#5) ∧
    decodeWord 0x001031B3#32 = .ok (.sltu 3#5 0#5 1#5) ∧ decodeWord 0x01DF4FB3#32 = .ok (.xor 31#5 30#5 29#5) ∧
    decodeWord 0x0020D1B3#32 = .ok (.srl 3#5 1#5 2#5) ∧ decodeWord 0x4020D1B3#32 = .ok (.sra 3#5 1#5 2#5) ∧
    decodeWord 0x01DF6FB3#32 = .ok (.or 31#5 30#5 29#5) ∧ decodeWord 0x01DF7FB3#32 = .ok (.and 31#5 30#5 29#5) := by decide

theorem test_decode_op32 :
    decodeWord 0x002081BB#32 = .ok (.addw 3#5 1#5 2#5) ∧ decodeWord 0x402081BB#32 = .ok (.subw 3#5 1#5 2#5) ∧
    decodeWord 0x002091BB#32 = .ok (.sllw 3#5 1#5 2#5) ∧ decodeWord 0x0020D1BB#32 = .ok (.srlw 3#5 1#5 2#5) ∧
    decodeWord 0x4020D1BB#32 = .ok (.sraw 3#5 1#5 2#5) := by decide

theorem test_decode_opimm :
    decodeWord 0x80008193#32 = .ok (.addi 3#5 1#5 (-2048#12)) ∧ decodeWord 0xFFF0A193#32 = .ok (.slti 3#5 1#5 (-1#12)) ∧
    decodeWord 0x0010B193#32 = .ok (.sltiu 3#5 1#5 1#12) ∧ decodeWord 0x5550C193#32 = .ok (.xori 3#5 1#5 0x555#12) ∧
    decodeWord 0xFF00E193#32 = .ok (.ori 3#5 1#5 (-16#12)) ∧ decodeWord 0x0FF0F193#32 = .ok (.andi 3#5 1#5 255#12) ∧
    decodeWord 0x03F09193#32 = .ok (.slli 3#5 1#5 63#6) ∧ decodeWord 0x0200D193#32 = .ok (.srli 3#5 1#5 32#6) ∧
    decodeWord 0x43F0D193#32 = .ok (.srai 3#5 1#5 63#6) := by decide

theorem test_decode_opimm32 :
    decodeWord 0xFFF0819B#32 = .ok (.addiw 3#5 1#5 (-1#12)) ∧ decodeWord 0x01F0919B#32 = .ok (.slliw 3#5 1#5 31#5) ∧
    decodeWord 0x0040D19B#32 = .ok (.srliw 3#5 1#5 4#5) ∧ decodeWord 0x4040D19B#32 = .ok (.sraiw 3#5 1#5 4#5) := by decide

/-- LUI, AUIPC, JAL, JALR, FENCE, ECALL, EBREAK, CSRRW, MRET, AMOADD.W, a compressed word, all ones and all zeros: no class has
their opcode (R88, R96, R99, R100). -/
theorem test_decode_rejects_unknown_opcodes :
    [0x000010B7#32, 0x00000097#32, 0x008000EF#32, 0x00008067#32, 0x0FF0000F#32, 0x00000073#32, 0x00100073#32,
      0x300110F3#32, 0x30200073#32, 0x0020A1AF#32, 0x00000085#32, 0xFFFFFFFF#32, 0x00000000#32].map decodeWord =
      List.replicate 13 (.error .unknownOpcode) := by decide

/-- Branch funct3 010, load funct3 111, store funct3 100, addiw funct3 010 (R89, R90, R91, R97). -/
theorem test_decode_rejects_unknown_funct3 :
    [0x0020A063#32, 0x0003F283#32, 0x00534023#32, 0x0000A19B#32].map decodeWord =
      List.replicate 4 (.error .unknownFunct3) := by decide

/-- MUL, MULW, add with funct7 0000010, slli with inst[31:26] = 000001, slliw with inst[25] = 1 (R93, R94, R95, R97). -/
theorem test_decode_rejects_unknown_funct7 :
    [0x022081B3#32, 0x022081BB#32, 0x042081B3#32, 0x04009193#32, 0x0200919B#32].map decodeWord =
      List.replicate 5 (.error .unknownFunct7) := by decide

/-- Three bytes are no instruction (R100). -/
theorem test_decode_rejects_truncated : decodeBytes [0x13#8, 0x00#8, 0x00#8] = .error .truncated := by decide

/-! ### One step of each instruction -/

/-- `State.reset` with registers set. -/
def withRegs (l : List (RegIdx × Word)) : State := l.foldl (fun s p => s.setReg p.1 p.2) State.reset

/-- A state with the bytes 88 99 AA BB CC DD EE FF at 0x80000100, as the Load table has it. -/
def withBytes (s : State) : State :=
  { s with mem := loadImage s.mem 0x80000100 [0x88#8, 0x99#8, 0xAA#8, 0xBB#8, 0xCC#8, 0xDD#8, 0xEE#8, 0xFF#8] }

/-- The state after one step that fetches the word. -/
def stepOn (w : Nat) (s : State) : State := outcomeState s (step (s.withFetchWord 32 w))

/-- The registers x1 = a and x2 = b of the R-type tables. -/
def ab (a b : Word) : State := withRegs [(1#5, a), (2#5, b)]

/-- The base register x6 = a of the Load table, with its bytes. -/
def loadFrom (a : Word) : State := withBytes (withRegs [(6#5, a)])

/-- x5 = 0x1122334455667788 and the base register x6 = a of the Store table. -/
def storeTo (a : Word) : State := withRegs [(5#5, 0x1122334455667788#64), (6#5, a)]

/-- The register result and the pc after one step. -/
def regPc (r : RegIdx) (t : State) : Word × Word := (t.reg r, t.pc)

/-- The eight bytes from an address. (The Store table sets them to EE first, these tests leave them 0.) -/
def eightBytes (t : State) (a : Nat) : List Nat := (List.range 8).map fun k => (t.byteAt (a + k)).toNat

theorem test_beq_taken : (stepOn 0x00208463 (ab 5#64 5#64)).pc = 0x80000008#64 := by decide
theorem test_bne_taken : (stepOn 0x00209463 (ab 5#64 6#64)).pc = 0x80000008#64 := by decide
theorem test_bne_not_taken_is_not_checked : (stepOn 0x00001363 State.reset).pc = 0x80000004#64 := by decide
theorem test_blt_signed : (stepOn 0x0020C863 (ab 0xFFFFFFFFFFFFFFFF#64 1#64)).pc = 0x80000010#64 := by decide
theorem test_bge_min_max :
    (stepOn 0x0020D863 (ab 0x8000000000000000#64 0x7FFFFFFFFFFFFFFF#64)).pc = 0x80000004#64 := by decide
theorem test_bge_equal : (stepOn 0x0020D863 (ab 7#64 7#64)).pc = 0x80000010#64 := by decide
theorem test_bltu_unsigned : (stepOn 0x0020E863 (ab 0xFFFFFFFFFFFFFFFF#64 1#64)).pc = 0x80000004#64 := by decide
theorem test_bgeu_unsigned :
    (stepOn 0x0020F863 (ab 0x8000000000000000#64 0x7FFFFFFFFFFFFFFF#64)).pc = 0x80000010#64 := by decide

theorem test_lb : regPc 5#5 (stepOn 0x00030283 (loadFrom 0x80000100#64)) = (0xFFFFFFFFFFFFFF88#64, 0x80000004#64) := by decide
theorem test_lh : regPc 5#5 (stepOn 0x00031283 (loadFrom 0x80000100#64)) = (0xFFFFFFFFFFFF9988#64, 0x80000004#64) := by decide
theorem test_lh_misaligned : regPc 5#5 (stepOn 0x00731283 (loadFrom 0x80000100#64)) = (0xFF#64, 0x80000004#64) := by decide
theorem test_lw_misaligned :
    regPc 5#5 (stepOn 0x00132283 (loadFrom 0x80000100#64)) = (0xFFFFFFFFCCBBAA99#64, 0x80000004#64) := by decide
theorem test_ld_into_its_base :
    regPc 6#5 (stepOn 0x00033303 (loadFrom 0x80000100#64)) = (0xFFEEDDCCBBAA9988#64, 0x80000004#64) := by decide
theorem test_ld_crossing_the_top :
    (stepOn 0x00033283 (loadFrom 0x87FFFFFC#64)).status = .halted (.trap (.loadAccessFault 0x87FFFFFC#64)) := by decide
theorem test_lbu : regPc 5#5 (stepOn 0x00034283 (loadFrom 0x80000100#64)) = (0x88#64, 0x80000004#64) := by decide
theorem test_lbu_into_x0_still_faults :
    (stepOn 0x00034003 State.reset).status = .halted (.trap (.loadAccessFault 0#64)) := by decide
theorem test_lhu_largest_offset :
    regPc 5#5 (stepOn 0x7FF35283 (loadFrom 0x7FFFF901#64)) = (0x9988#64, 0x80000004#64) := by decide
theorem test_lwu : regPc 5#5 (stepOn 0x00036283 (loadFrom 0x80000100#64)) = (0xBBAA9988#64, 0x80000004#64) := by decide

theorem test_sb : eightBytes (stepOn 0x00530023 (storeTo 0x80000200#64)) 0x80000200 = [0x88, 0, 0, 0, 0, 0, 0, 0] := by decide
theorem test_sh : eightBytes (stepOn 0x00531023 (storeTo 0x80000200#64)) 0x80000200 = [0x88, 0x77, 0, 0, 0, 0, 0, 0] := by decide
theorem test_sh_below_the_window :
    (stepOn 0xFE531FA3 (storeTo 0x80000000#64)).status = .halted (.trap (.storeAMOAccessFault 0x7FFFFFFF#64)) := by decide
theorem test_sw_misaligned :
    eightBytes (stepOn 0x005321A3 (storeTo 0x80000200#64)) 0x80000200 = [0, 0, 0, 0x88, 0x77, 0x66, 0x55, 0] := by decide
theorem test_sd_negative_offset :
    eightBytes (stepOn 0xFE533C23 (storeTo 0x80000208#64)) 0x80000200 = [0x88, 0x77, 0x66, 0x55, 0x44, 0x33, 0x22, 0x11] := by
  decide
theorem test_sd_of_its_base :
    eightBytes (stepOn 0x00633023 (withRegs [(6#5, 0x80000200#64)])) 0x80000200 = [0, 2, 0, 0x80, 0, 0, 0, 0] := by decide

theorem test_add_same_register :
    regPc 1#5 (stepOn 0x001080B3 (ab 0x4000000000000000#64 0#64)) = (0x8000000000000000#64, 0x80000004#64) := by decide
theorem test_add_into_x0 : regPc 0#5 (stepOn 0x00208033 (ab 1#64 2#64)) = (0#64, 0x80000004#64) := by decide
theorem test_sub :
    regPc 31#5 (stepOn 0x41DF0FB3 (withRegs [(30#5, 37#64), (29#5, 5#64)])) = (32#64, 0x80000004#64) := by decide
theorem test_sll_low_six_bits : regPc 3#5 (stepOn 0x002091B3 (ab 3#64 0xFFFFFFFFFFFFFFC1#64)) = (6#64, 0x80000004#64) := by decide
theorem test_slt :
    regPc 3#5 (stepOn 0x0020A1B3 (ab 0x8000000000000000#64 0x7FFFFFFFFFFFFFFF#64)) = (1#64, 0x80000004#64) := by decide
theorem test_sltu :
    regPc 3#5 (stepOn 0x0020B1B3 (ab 0x8000000000000000#64 0x7FFFFFFFFFFFFFFF#64)) = (0#64, 0x80000004#64) := by decide
theorem test_xor : regPc 3#5 (stepOn 0x0020C1B3 (ab 0xA#64 0xC#64)) = (6#64, 0x80000004#64) := by decide
theorem test_srl : regPc 3#5 (stepOn 0x0020D1B3 (ab 0x8000000000000000#64 0x3F#64)) = (1#64, 0x80000004#64) := by decide
theorem test_sra_low_six_bits :
    regPc 3#5 (stepOn 0x4020D1B3 (ab 0x7000000000000000#64 0x44#64)) = (0x0700000000000000#64, 0x80000004#64) := by decide
theorem test_sra_sign :
    regPc 3#5 (stepOn 0x4020D1B3 (ab 0x8000000000000000#64 0x3F#64)) = (0xFFFFFFFFFFFFFFFF#64, 0x80000004#64) := by decide
theorem test_or : regPc 3#5 (stepOn 0x0020E1B3 (ab 0xA#64 0xC#64)) = (0xE#64, 0x80000004#64) := by decide
theorem test_and : regPc 3#5 (stepOn 0x0020F1B3 (ab 0xA#64 0xC#64)) = (8#64, 0x80000004#64) := by decide

theorem test_addw_overflow :
    regPc 3#5 (stepOn 0x002081BB (ab 0x7FFFFFFF#64 1#64)) = (0xFFFFFFFF80000000#64, 0x80000004#64) := by decide
theorem test_addw_upper_halves :
    regPc 3#5 (stepOn 0x002081BB (ab 0x0000000123456789#64 0xFFFFFFFF00000001#64)) = (0x2345678A#64, 0x80000004#64) := by decide
theorem test_subw :
    regPc 3#5 (stepOn 0x402081BB (ab 0x80000000#64 1#64)) = (0x7FFFFFFF#64, 0x80000004#64) := by decide
theorem test_sllw : regPc 3#5 (stepOn 0x002091BB (ab 1#64 0x1F#64)) = (0xFFFFFFFF80000000#64, 0x80000004#64) := by decide
theorem test_sllw_amount_64_is_0 : regPc 3#5 (stepOn 0x002091BB (ab 1#64 0x40#64)) = (1#64, 0x80000004#64) := by decide
theorem test_srlw_upper_half :
    regPc 3#5 (stepOn 0x0020D1BB (ab 0xFFFFFFFF00000010#64 4#64)) = (1#64, 0x80000004#64) := by decide
theorem test_srlw_amount_0 :
    regPc 3#5 (stepOn 0x0020D1BB (ab 0x80000000#64 0#64)) = (0xFFFFFFFF80000000#64, 0x80000004#64) := by decide
theorem test_sraw :
    regPc 3#5 (stepOn 0x4020D1BB (ab 0xF0000000#64 4#64)) = (0xFFFFFFFFFF000000#64, 0x80000004#64) := by decide
/-- With the amount 33 the destination is free and everything else is as the rule says (R187). -/
theorem test_sraw_amount_33 : regPc 1#5 (stepOn 0x4020D1BB (ab 0x80000000#64 0x21#64)) = (0x80000000#64, 0x80000004#64) := by decide

theorem test_addi_wraps :
    regPc 3#5 (stepOn 0x7FF08193 (ab 0x7FFFFFFFFFFFFFFF#64 0#64)) = (0x80000000000007FE#64, 0x80000004#64) := by decide
theorem test_nop : stepOn 0x00000013 State.reset = (State.reset.withFetchWord 32 0x13).setPc 0x80000004#64 := by decide
theorem test_slti : regPc 3#5 (stepOn 0xFFF0A193 (ab 0x8000000000000000#64 0#64)) = (1#64, 0x80000004#64) := by decide
theorem test_sltiu_immediate_is_unsigned :
    regPc 3#5 (stepOn 0xFFF0B193 (ab 0x7FFFFFFFFFFFFFFF#64 0#64)) = (1#64, 0x80000004#64) := by decide
theorem test_xori : regPc 3#5 (stepOn 0xFFF0C193 (ab 0xFF#64 0#64)) = (0xFFFFFFFFFFFFFF00#64, 0x80000004#64) := by decide
theorem test_ori_sign_extended :
    regPc 3#5 (stepOn 0xFF00E193 (ab 5#64 0#64)) = (0xFFFFFFFFFFFFFFF5#64, 0x80000004#64) := by decide
theorem test_andi_sign_extended :
    regPc 3#5 (stepOn 0x8000F193 (ab 0x123456789ABCDEF0#64 0#64)) = (0x123456789ABCD800#64, 0x80000004#64) := by decide
theorem test_slli_63 : regPc 3#5 (stepOn 0x03F09193 (ab 3#64 0#64)) = (0x8000000000000000#64, 0x80000004#64) := by decide
theorem test_srli_32 :
    regPc 3#5 (stepOn 0x0200D193 (ab 0xFFFFFFFFFFFFFFFF#64 0#64)) = (0xFFFFFFFF#64, 0x80000004#64) := by decide
theorem test_srai_32 :
    regPc 3#5 (stepOn 0x4200D193 (ab 0x8000000000000000#64 0#64)) = (0xFFFFFFFF80000000#64, 0x80000004#64) := by decide

theorem test_addiw_overflow :
    regPc 3#5 (stepOn 0x0010819B (ab 0x7FFFFFFF#64 0#64)) = (0xFFFFFFFF80000000#64, 0x80000004#64) := by decide
theorem test_slliw : regPc 3#5 (stepOn 0x0040919B (ab 0x12345678#64 0#64)) = (0x23456780#64, 0x80000004#64) := by decide
theorem test_srliw_amount_0 :
    regPc 3#5 (stepOn 0x0000D19B (ab 0x80000000#64 0#64)) = (0xFFFFFFFF80000000#64, 0x80000004#64) := by decide
theorem test_sraiw :
    regPc 3#5 (stepOn 0x41F0D19B (ab 0x80000000#64 0#64)) = (0xFFFFFFFFFFFFFFFF#64, 0x80000004#64) := by decide

/-! ### Halts, construction, the CSR port, the debug port, the assembly text -/

/-- Nothing placed: the first step from reset halts on the zero word (R111, log 7). -/
theorem test_reset_halts_on_the_zero_word : step State.reset = .next (State.reset.halt (.zeroWord 0x80000000#64)) := by rfl

/-- A taken branch to a target that is 2 modulo 4 (R131). -/
theorem test_misaligned_target :
    stepOn 0x7E000FE3 State.reset =
      (State.reset.withFetchWord 32 0x7E000FE3).halt (.trap (.instructionAddressMisaligned 0x80000FFE#64)) := by decide

/-- The payload of an illegal word is the word, zero-extended (R96). -/
theorem test_illegal_all_ones :
    (stepOn 0xFFFFFFFF State.reset).status = .halted (.trap (.illegalInstruction 0x00000000FFFFFFFF#64)) := by decide

/-- The fetch at the target of beq x0, x0, -4096 faults (R110, R116). -/
theorem test_fetch_fault :
    (outcomeState State.reset (step (State.reset.setPc 0x7FFFF000#64))).status =
      .halted (.trap (.instructionAccessFault 0x7FFFF000#64)) := by decide

/-- An image longer than MEM_SIZE gives no block, one of MEM_SIZE bytes does (R250). -/
theorem test_construct_refuses_a_long_image :
    construct { Params.reference with memSize := 2 } initXReference [1#8, 2#8, 3#8] = none ∧
    (construct { Params.reference with memSize := 2 } initXReference [1#8, 2#8]).isSome = true := by decide

/-- The CSR sequence of the spec, up to the store to mideleg: the four backing entries at its end (R31 to R37). -/
theorem test_csr_mstatus_view :
    let s1 := csrWrite State.reset 0x300#12 0xFFFFFFFFFFFFFFFF#64
    let s2 := csrWrite s1 0x100#12 0#64
    let s3 := csrWrite (csrWrite s2 0x300#12 0#64) 0x100#12 0x20002#64
    csrRead s1 0x100#12 = 0x80000003000DE162#64 ∧ csrRead s2 0x300#12 = 0x7FFFFFFCFFF21E9D#64 ∧
      csrRead s3 0x300#12 = 2#64 := by decide

/-- The rest of the sequence: the sie and sip views under mideleg (R33, R34, R37, R38, decision D24). -/
theorem test_csr_sie_sip_views :
    let s1 := csrWrite State.reset 0x104#12 0xFFFFFFFFFFFFFFFF#64
    let s2 := csrWrite (csrWrite s1 0x303#12 0x222#64) 0x104#12 0xFFFFFFFFFFFFFFFF#64
    let s3 := csrWrite (csrWrite s2 0x304#12 0xAAA#64) 0x144#12 0xF2#64
    csrRead s1 0x304#12 = 0#64 ∧ csrRead s2 0x304#12 = 0x222#64 ∧ csrRead s3 0x104#12 = 0x222#64 ∧
      csrRead s3 0x304#12 = 0xAAA#64 ∧ csrRead s3 0x344#12 = 0x22#64 ∧ csrRead s3 0x144#12 = 0x22#64 ∧
      csrRead (csrWrite s3 0xC00#12 5#64) 0xC00#12 = 5#64 ∧ csrRead s3 0xFFF#12 = 0#64 := by decide

/-- The named fields of R42 are the bits of the reference mask. -/
theorem test_sstatus_mask :
    (sstatusFields.foldl (fun m f => m ||| bitsMask f.2.1 f.2.2) 0#64) = Params.reference.sstatusMask := by decide

/-- fp is x8, s0 is x8, and pc is the program counter (R242). -/
theorem test_lookup :
    lookupRegister (withRegs [(8#5, 7#64)]) "fp" = .value 7#64 ∧ lookupRegister (withRegs [(8#5, 7#64)]) "s0" = .value 7#64 ∧
    lookupRegister (withRegs [(8#5, 7#64)]) "x8" = .value 7#64 ∧ lookupRegister State.reset "pc" = .value 0x80000000#64 ∧
    lookupRegister State.reset "x32" = .invalidRegister "x32" := by decide

theorem test_assembly_text :
    assemblyText (.addi 29#5 0#5 (-5#12)) = "addi x29, x0, -5" ∧ assemblyText (.lb 7#5 6#5 256#12) = "lb x7, 256(x6)" ∧
    assemblyText (.sb 6#5 5#5 0#12) = "sb x5, 0(x6)" ∧ assemblyText (.bne 1#5 2#5 (-4#13)) = "bne x1, x2, -4" ∧
    assemblyText (.slliw 3#5 1#5 31#5) = "slliw x3, x1, 31" := by decide

/-- Words of R102: nop, not, sext.w and seqz. -/
theorem test_pseudo_words :
    encode (expandPseudo .nop) = 0x00000013#32 ∧ encode (expandPseudo (.not 3#5 1#5)) = 0xFFF0C193#32 ∧
    encode (expandPseudo (.sextW 3#5 1#5)) = 0x0000819B#32 ∧ encode (expandPseudo (.seqz 3#5 1#5)) = 0x0010B193#32 := by decide

/-! ### Witnesses: for each statement with hypotheses, states and operands that meet them together -/

/-- `State.reset` with the word placed at MEM_BASE. -/
def holding (w : Nat) : State := State.reset.withFetchWord 32 w

/-- `State.reset` with the pc at an address. -/
def atPc (a : Word) : State := State.reset.setPc a

theorem fetchInWindow_holding (w : Nat) : FetchInWindow (holding w) := by
  have h : (holding w).params = State.reset.params ∧ (holding w).pc = State.reset.pc := by
    unfold holding State.withFetchWord
    rw [placeWord_eq (by decide) (by decide) (by decide) (by decide)]
    exact ⟨rfl, rfl⟩
  unfold FetchInWindow fetchAddr
  rw [h.1, h.2]
  decide

/-- The two ends of the offset range (R84). -/
theorem witness_DecodeOfEncodeIsTheInstruction :
    (Instr.beq 31#5 0#5 4094#13).wellFormed = true ∧ (Instr.bgeu 0#5 31#5 (-4096#13)).wellFormed = true ∧
    (Instr.srai 31#5 31#5 63#6).wellFormed = true := by decide

theorem witness_EncodeOfDecodeIsTheWord : decodeWord 0x80000063#32 = .ok (.beq 0#5 0#5 (-4096#13)) := by decide

theorem witness_DecodeAgreesWithTheOpcodeTable :
    decodeWord 0x43F0D193#32 = .ok (.srai 3#5 1#5 63#6) ∧
    0x43F0D193#32 &&& (opcodeRow (.srai 0#5 0#5 0#6)).1 = (opcodeRow (.srai 0#5 0#5 0#6)).2 := by decide

theorem witness_StepRunsTheDecodedInstruction :
    (holding 0xFE029CE3).status = .running ∧ FetchInWindow (holding 0xFE029CE3) ∧
    decodeBytes (fetchBytes (holding 0xFE029CE3)) = .ok (.bne 5#5 0#5 (-8#13), []) :=
  ⟨by decide, fetchInWindow_holding _, by decide⟩

theorem witness_StepOnTheZeroWordHalts :
    (holding 0).status = .running ∧ FetchInWindow (holding 0) ∧ leNat (fetchBytes (holding 0)) = 0 :=
  ⟨by decide, fetchInWindow_holding _, by decide⟩

/-- The MUL word, one bit away from ADD, matches no row. -/
theorem witness_StepOnAnUnmappedWordTraps :
    (holding 0x022081B3).status = .running ∧ FetchInWindow (holding 0x022081B3) ∧
    (0x022081B3#32).toNat = leNat (fetchBytes (holding 0x022081B3)) ∧ 0x022081B3#32 ≠ 0#32 ∧
    ∀ j, 0x022081B3#32 &&& (opcodeRow j).1 ≠ (opcodeRow j).2 :=
  ⟨by decide, fetchInWindow_holding _, by decide, by decide, fun j => by cases j <;> (simp only [opcodeRow]; decide)⟩

/-- Each number k of readable bytes before the end of the window, 0 to 3. -/
theorem witness_FetchReadsFourBytesOrFaultsAtTheFirstOutside :
    FetchInWindow (holding 0x13) ∧
    (∀ k, k < 4 → (∀ j, j < k → inWindow State.reset.params (fetchAddr (atPc (0x88000000#64 - BitVec.ofNat 64 k)) j).toNat 1 = true) ∧
      inWindow State.reset.params (fetchAddr (atPc (0x88000000#64 - BitVec.ofNat 64 k)) k).toNat 1 = false) ∧
    ((atPc 0x88000000#64).params.valid ∧ (atPc 0x88000000#64).params.memSize % 4 = 0 ∧
      (atPc 0x88000000#64).pc.toNat % 4 = 0 ∧
      fetchWord (atPc 0x88000000#64) = .error (.instructionAccessFault 0x88000000#64)) :=
  ⟨fetchInWindow_holding _, by decide, by simp [atPc, State.reset, Params.valid, Params.reference], by rfl, by rfl, by rfl⟩

/-- The pc at the word after the first of a window of 4 + k bytes, so that k bytes of its fetch are in the window. -/
def shortWindow (k : Nat) : State :=
  { atPc 0x80000004#64 with params := { Params.reference with memSize := 4 + k } }

/-- One address below the window and one above, and a window that ends after each number k of bytes of the fetch, 0 to 3. -/
theorem witness_PcOutOfWindowHaltsTheRun :
    ((atPc 0x7FFFFFFC#64).status = .running ∧ inWindow (atPc 0x7FFFFFFC#64).params (atPc 0x7FFFFFFC#64).pc.toNat 1 = false ∧
      inWindow (atPc 0x88000000#64).params (atPc 0x88000000#64).pc.toNat 1 = false) ∧
    ∀ k, k < 4 → (shortWindow k).status = .running ∧
      (∀ j, j < k → inWindow (shortWindow k).params (fetchAddr (shortWindow k) j).toNat 1 = true) ∧
      inWindow (shortWindow k).params (fetchAddr (shortWindow k) k).toNat 1 = false := by decide

theorem witness_HaltedNeverChanges :
    construct Params.reference initXReference [] = some State.reset ∧
    (State.reset.halt (.trap (.loadAccessFault 0#64))).status = .halted (.trap (.loadAccessFault 0#64)) := by decide

/-- A zero-word halt and a trap halt. -/
theorem witness_EveryHaltIsPrecise :
    (State.reset.status = .running ∧ ∃ t, step State.reset = .next t ∧ t.status = .halted (.zeroWord 0x80000000#64)) ∧
    ((atPc 0#64).status = .running ∧
      ∃ t, step (atPc 0#64) = .next t ∧ t.status = .halted (.trap (.instructionAccessFault 0#64))) :=
  ⟨⟨rfl, _, rfl, rfl⟩, rfl, _, rfl, rfl⟩

/-- Each of the five causes, raised by a step of a running block. -/
theorem witness_OnlyFiveCausesAreRaised :
    (holding 0x7E000FE3).status = .running ∧
    (stepOn 0x7E000FE3 State.reset).status = .halted (.trap (.instructionAddressMisaligned 0x80000FFE#64)) ∧
    (outcomeState State.reset (step (atPc 0#64))).status = .halted (.trap (.instructionAccessFault 0#64)) ∧
    (stepOn 0x00000073 State.reset).status = .halted (.trap (.illegalInstruction 0x73#64)) ∧
    (stepOn 0x00034003 State.reset).status = .halted (.trap (.loadAccessFault 0#64)) ∧
    (stepOn 0x00530023 State.reset).status = .halted (.trap (.storeAMOAccessFault 0#64)) := by decide

/-- A step that stores to the Memory and moves the pc, from an aligned pc. -/
theorem witness_StepKeepsCsrAndParameters : ∃ t, step (holding 0x00530023) = .next t :=
  let ⟨t, h, _⟩ := step_case (holding 0x00530023)
  ⟨t, h⟩

theorem witness_PcStaysAMultipleOfFour :
    (holding 0x00208463).pc.toNat % 4 = 0 ∧ ∃ t, step (holding 0x00208463) = .next t :=
  ⟨by decide, let ⟨t, h, _⟩ := step_case (holding 0x00208463); ⟨t, h⟩⟩

/-- A block that holds a program and a CSR value, and is running. -/
theorem witness_StepKeepsTheInvariant :
    (csrWrite (holding 0x00208463) 0x303#12 0x222#64).Inv ∧
      ∃ t, step (csrWrite (holding 0x00208463) 0x303#12 0x222#64) = .next t :=
  ⟨{ params := by
       rw [show (csrWrite (holding 0x00208463) 0x303#12 0x222#64).params = Params.reference by decide]
       simp [Params.valid, Params.reference]
     pcAligned := by decide
     x0Zero := by decide
     memWf := by decide
     memInWindow := by decide
     csrWf := by decide
     csrInBank := by decide
     viewsUnused := by decide
     zeroWordPc := fun a h => by
       rw [show (csrWrite (holding 0x00208463) 0x303#12 0x222#64).status = .running by decide] at h
       cases h
     trapCause := fun e h => by
       rw [show (csrWrite (holding 0x00208463) 0x303#12 0x222#64).status = .running by decide] at h
       cases h },
   let ⟨t, h, _⟩ := step_case (csrWrite (holding 0x00208463) 0x303#12 0x222#64)
   ⟨t, h⟩⟩

/-- The last 4 KiB of the address space, with an image of one word. -/
theorem witness_EveryHostRunKeepsTheInvariant :
    let p : Params := { Params.reference with memBase := 0xFFFFFFFFFFFFF000#64, memSize := 0x1000 }
    p.valid ∧ ∃ s, construct p initXReference (wordBytes 0x00000063#32) = some s :=
  ⟨by simp [Params.valid], _, if_pos (by decide)⟩

/-- An image one byte too long, one that fills the window, and the empty one. -/
theorem witness_ConstructBuildsTheBlock :
    let p : Params := { Params.reference with memSize := 2 }
    p.valid ∧ p.memSize < [1#8, 2#8, 3#8].length ∧ [1#8, 2#8].length ≤ p.memSize ∧ ([] : List Byte).length ≤ p.memSize :=
  ⟨by simp [Params.valid, Params.reference], by decide, by decide, by decide⟩

theorem witness_WithFetchWordRunsThatInstruction :
    FetchInWindow (holding 0x13) ∧ Memory.wf (holding 0x13).mem = true ∧
    decodeTableWord 32 0x41DF0FB3 = some (.sub 31#5 30#5 29#5) :=
  ⟨fetchInWindow_holding _, by decide, by decide⟩

/-- beq: the last even offset is well-formed, a taken branch to an aligned target (offset -4096) and to a misaligned one
(4094), and one not taken. bne: the same with the condition turned. -/
theorem witness_BranchesOnEqualityCompleteOrTrap :
    evenOffset 4094#13 = true ∧
    ((0x7FFFF000#64).toNat : Int) = ((ab 5#64 5#64).pc.toNat + (-4096#13).toInt) % 2 ^ 64 ∧
    ((0x80000FFE#64).toNat : Int) = ((ab 5#64 5#64).pc.toNat + (4094#13).toInt) % 2 ^ 64 ∧
    (0x7FFFF000#64).toNat % 4 = 0 ∧ (0x80000FFE#64).toNat % 4 ≠ 0 ∧
    (0x80000004#64).toNat = ((ab 5#64 6#64).pc.toNat + 4) % 2 ^ 64 ∧
    (ab 5#64 5#64).reg 1#5 = (ab 5#64 5#64).reg 2#5 ∧ (ab 5#64 6#64).reg 1#5 ≠ (ab 5#64 6#64).reg 2#5 := by decide

/-- Signed: -1 < 1 and its negation on equal values. -/
theorem witness_SignedBranchesCompleteOrTrap :
    ((ab 0xFFFFFFFFFFFFFFFF#64 1#64).reg 1#5).toInt < ((ab 0xFFFFFFFFFFFFFFFF#64 1#64).reg 2#5).toInt ∧
    ((ab 7#64 7#64).reg 2#5).toInt ≤ ((ab 7#64 7#64).reg 1#5).toInt ∧
    ((0x80000FFC#64).toNat : Int) = ((ab 7#64 7#64).pc.toNat + (4092#13).toInt) % 2 ^ 64 ∧
    ((0x80000FFE#64).toNat : Int) = ((ab 7#64 7#64).pc.toNat + (4094#13).toInt) % 2 ^ 64 ∧
    (0x80000FFC#64).toNat % 4 = 0 ∧ (0x80000FFE#64).toNat % 4 ≠ 0 := by decide

/-- Unsigned: 1 < 2^64 - 1 and its negation on equal values. -/
theorem witness_UnsignedBranchesCompleteOrTrap :
    ((ab 1#64 0xFFFFFFFFFFFFFFFF#64).reg 1#5).toNat < ((ab 1#64 0xFFFFFFFFFFFFFFFF#64).reg 2#5).toNat ∧
    ((ab 7#64 7#64).reg 2#5).toNat ≤ ((ab 7#64 7#64).reg 1#5).toNat ∧
    ((0x80000FFC#64).toNat : Int) = ((ab 7#64 7#64).pc.toNat + (4092#13).toInt) % 2 ^ 64 ∧
    ((0x80000FFE#64).toNat : Int) = ((ab 7#64 7#64).pc.toNat + (4094#13).toInt) % 2 ^ 64 ∧
    (0x80000FFC#64).toNat % 4 = 0 ∧ (0x80000FFE#64).toNat % 4 ≠ 0 := by decide

/-- At each width, the last span inside the window and the first that crosses its end. -/
theorem witness_SignedLoadsCompleteOrFault :
    inWindow State.reset.params (effAddr (loadFrom 0x87FFFFFF#64) 6#5 0#12).toNat 1 = true ∧
    inWindow State.reset.params (effAddr (loadFrom 0x87FFFFFF#64) 6#5 1#12).toNat 1 = false ∧
    inWindow State.reset.params (effAddr (loadFrom 0x87FFFFFF#64) 6#5 (-1#12)).toNat 2 = true ∧
    inWindow State.reset.params (effAddr (loadFrom 0x87FFFFFF#64) 6#5 0#12).toNat 2 = false ∧
    inWindow State.reset.params (effAddr (loadFrom 0x87FFFFFF#64) 6#5 (-3#12)).toNat 4 = true ∧
    inWindow State.reset.params (effAddr (loadFrom 0x87FFFFFF#64) 6#5 (-2#12)).toNat 4 = false ∧
    inWindow State.reset.params (effAddr (loadFrom 0x87FFFFFF#64) 6#5 (-7#12)).toNat 8 = true ∧
    inWindow State.reset.params (effAddr (loadFrom 0x87FFFFFF#64) 6#5 (-6#12)).toNat 8 = false := by decide

/-- The first address of the window and the one below it. -/
theorem witness_UnsignedLoadsCompleteOrFault :
    inWindow State.reset.params (effAddr (loadFrom 0x80000000#64) 6#5 0#12).toNat 1 = true ∧
    inWindow State.reset.params (effAddr (loadFrom 0x80000000#64) 6#5 (-1#12)).toNat 1 = false ∧
    inWindow State.reset.params (effAddr (loadFrom 0x80000000#64) 6#5 0#12).toNat 2 = true ∧
    inWindow State.reset.params (effAddr (loadFrom 0x80000000#64) 6#5 (-1#12)).toNat 2 = false ∧
    inWindow State.reset.params (effAddr (loadFrom 0x80000000#64) 6#5 0#12).toNat 4 = true ∧
    inWindow State.reset.params (effAddr (loadFrom 0x80000000#64) 6#5 (-1#12)).toNat 4 = false := by decide

/-- A canonical Memory, with a span at each end of the window and one that crosses each end. -/
theorem witness_StoresCompleteOrFault :
    Memory.wf (loadFrom 0x87FFFFFF#64).mem = true ∧
    inWindow State.reset.params (effAddr (loadFrom 0x87FFFFFF#64) 6#5 0#12).toNat 1 = true ∧
    inWindow State.reset.params (effAddr (loadFrom 0x87FFFFFF#64) 6#5 1#12).toNat 1 = false ∧
    inWindow State.reset.params (effAddr (loadFrom 0x87FFFFFF#64) 6#5 (-1#12)).toNat 2 = true ∧
    inWindow State.reset.params (effAddr (loadFrom 0x80000000#64) 6#5 (-1#12)).toNat 2 = false ∧
    inWindow State.reset.params (effAddr (loadFrom 0x87FFFFFF#64) 6#5 (-3#12)).toNat 4 = true ∧
    inWindow State.reset.params (effAddr (loadFrom 0x87FFFFFF#64) 6#5 (-2#12)).toNat 4 = false ∧
    inWindow State.reset.params (effAddr (loadFrom 0x87FFFFFF#64) 6#5 (-7#12)).toNat 8 = true ∧
    inWindow State.reset.params (effAddr (loadFrom 0x87FFFFFF#64) 6#5 (-6#12)).toNat 8 = false := by decide

/-- A store of eight bytes at the end of the window, over a Memory that holds bytes. -/
theorem witness_StoreThenLoadReturnsTheStoredBytes :
    Memory.wf (loadFrom 0#64).mem = true ∧ ∃ t, busStore (loadFrom 0#64) 0x87FFFFF8#64 .double 0x8899AABBCCDDEEFF#64 = .ok t :=
  ⟨by decide, _, if_pos (by decide)⟩

/-- The same, with the last byte of the span. -/
theorem witness_StoreIsSeenByFetch :
    (loadFrom 0#64).params.valid ∧ Memory.wf (loadFrom 0#64).mem = true ∧
    (∃ t, busStore (loadFrom 0#64) 0x87FFFFF8#64 .double 0x8899AABBCCDDEEFF#64 = .ok t) ∧ 7 < widthBytes .double :=
  ⟨by
    rw [show (loadFrom 0#64).params = Params.reference by decide]
    simp [Params.valid, Params.reference], by decide, ⟨_, if_pos (by decide)⟩, by decide⟩

/-- The span of decision D13: the window is the top of the address space and the span crosses 2^64. -/
theorem witness_WindowCheckNeverWraps :
    let p : Params := { Params.reference with memBase := 0xFFFFFFFFFFFFF000#64, memSize := 0x1000 }
    p.valid ∧ 1 ≤ 8 ∧ 2 ^ 64 < 0xFFFFFFFFFFFFFFFC + 8 :=
  ⟨by simp [Params.valid], by decide, by decide⟩

/-- Two Memories written in different orders. -/
theorem witness_CanonicalMemoriesThatReadAlikeAreEqual :
    Memory.wf (memWrite (memWrite [] 4 1 7#64) 2 1 9#64) = true ∧ Memory.wf (memWrite (memWrite [] 2 1 9#64) 4 1 7#64) = true ∧
    ∀ a, sparseRead (memWrite (memWrite [] 4 1 7#64) 2 1 9#64) a = sparseRead (memWrite (memWrite [] 2 1 9#64) 4 1 7#64) a :=
  ⟨by decide, by decide, fun a => rfl⟩

/-- The amounts 31 and 64 (which is 0 modulo 64). -/
theorem witness_WordShiftsBelow32 :
    ((ab 1#64 31#64).reg 2#5).toNat % 64 < 32 ∧ ((ab 1#64 64#64).reg 2#5).toNat % 64 < 32 := by decide

/-- The amounts 32 and 63, of a register whose upper half is not 0. -/
theorem witness_WordShiftsFrom32TakeTheFreeValue :
    (1#32).toNat = ((ab 0xFFFFFFFF00000001#64 32#64).reg 1#5).toNat % 2 ^ 32 ∧
    ((32#6).toNat = ((ab 0xFFFFFFFF00000001#64 32#64).reg 2#5).toNat % 64 ∧ 32 ≤ (32#6).toNat) ∧
    ((63#6).toNat = ((ab 0xFFFFFFFF00000001#64 0xFF#64).reg 2#5).toNat % 64 ∧ 32 ≤ (63#6).toNat) := by decide

/-- A word shift by 32, whose result is the free value. -/
theorem witness_WordResultsAreSignExtended :
    isWordForm (.sllw 3#5 1#5 2#5) = true ∧ destination (.sllw 3#5 1#5 2#5) = some 3#5 ∧ 3#5 ≠ 0#5 ∧
    ∃ t, exec (.sllw 3#5 1#5 2#5) (ab 1#64 32#64) = .next t :=
  ⟨by decide, by decide, by decide, _, rfl⟩

/-- A load into x0 and the wrap of the pc at the top of the address space. -/
theorem witness_WritesToX0AreDiscarded :
    destination (.lbu 0#5 6#5 0#12) = some 0#5 ∧ (∃ t, exec (.lbu 0#5 6#5 0#12) (loadFrom 0x80000100#64) = .next t) ∧
    (0#64).toNat = ((atPc 0xFFFFFFFFFFFFFFFC#64).pc.toNat + 4) % 2 ^ 64 :=
  ⟨by decide, (exec_effect _ _).imp fun _ h => h.1, by decide⟩

/-- A store, and a register form with a register that is not its destination. -/
theorem witness_InstructionsWriteOneRegisterOrStore :
    (∃ t, exec (.sd 6#5 5#5 0#12) (storeTo 0x80000200#64) = .next t) ∧ isStore (.sd 6#5 5#5 0#12) = true ∧
    (∃ t, exec (.add 3#5 1#5 2#5) (ab 1#64 2#64) = .next t) ∧ isStore (.add 3#5 1#5 2#5) = false ∧
    destination (.add 3#5 1#5 2#5) ≠ some 1#5 :=
  ⟨(exec_effect _ _).imp fun _ h => h.1, by decide, ⟨_, rfl⟩, by decide, by decide⟩

/-- The first and last index and the neighbours of the views. -/
theorem witness_CsrReadsFollowTheViews :
    0x000#12 ∉ [0x100#12, 0x104#12, 0x144#12] ∧ 0x0FF#12 ∉ [0x100#12, 0x104#12, 0x144#12] ∧
    0x105#12 ∉ [0x100#12, 0x104#12, 0x144#12] ∧ 0xFFF#12 ∉ [0x100#12, 0x104#12, 0x144#12] := by simp

/-- A bank that holds a mask in mideleg. -/
theorem witness_CsrWritesReplaceMaskedBits :
    CsrBank.wf (csrWrite State.reset 0x303#12 0x222#64).csr = true ∧ 0xFFF#12 ∉ [0x100#12, 0x104#12, 0x144#12] := by decide

theorem witness_SipWriteGoesToMip :
    CsrBank.wf (csrWrite (csrWrite State.reset 0x303#12 0x222#64) 0x304#12 0xAAA#64).csr = true := by decide

/-- Two steps, the second a halt. -/
theorem witness_CsrBankNeverInfluencesARun : ∃ t, Host.Core.run Sys2Proof.core 2 (holding 0x13) = .next t := by
  obtain ⟨t, ht, -⟩ := step_case (holding 0x13)
  obtain ⟨u, hu, -⟩ := step_case t
  exact ⟨u, by rw [run_succ ht, run_succ hu]; rfl⟩

theorem witness_DebugLookupFindsTheNamedRegister :
    ("zero", 0#5) ∈ regNames ∧ ("t6", 31#5) ∈ regNames ∧ ("x0", 0#5) ∈ rawNames ∧ ("x31", 31#5) ∈ rawNames ∧
    "x32" ∉ regNames.map Prod.fst ∧ "x32" ∉ rawNames.map Prod.fst ∧ "x32" ≠ "fp" ∧ "x32" ≠ "pc" := by
  simp [regNames, rawNames]

theorem witness_HostCannotWriteRegistersPcOrMemory :
    HostOp.csrStore 0x300#12 1#64 ≠ .step ∧ HostOp.dump ≠ .step ∧ ∀ a v, HostOp.dump ≠ .csrStore a v :=
  ⟨by decide, by decide, fun _ _ h => by cases h⟩

/-- A word shift by 33 in two states whose registers differ in the upper half of x1 only. -/
theorem witness_WordFormsIgnoreTheUpperHalf :
    isWordForm (.srlw 3#5 1#5 2#5) = true ∧ destination (.srlw 3#5 1#5 2#5) = some 3#5 ∧
    (∀ r, ((ab 0xFFFFFFFF00000010#64 33#64).reg r).toNat % 2 ^ 32 = ((ab 0x10#64 33#64).reg r).toNat % 2 ^ 32) ∧
    (ab 0xFFFFFFFF00000010#64 33#64).reg 1#5 ≠ (ab 0x10#64 33#64).reg 1#5 := by decide

end Sys2Proof.Tests
end

section
/-! PROOFS. What each update of the state does to the invariant, said once per update: the pc, a register, the bytes of a store,
the halt, an entry of the CSR bank. Then the invariant along a step and along a run of the host (O18, O19). -/

namespace Sys2Proof.Machine

section Preservation

variable {s t : State}

/-! ### Aligned targets and the bytes of a span -/

/-- `pc + 4` is as aligned as `pc` (R24, R113). -/
theorem pcPlus4_aligned (h : s.pc.toNat % 4 = 0) : s.pcPlus4.toNat % 4 = 0 := by
  simp only [State.pcPlus4, BitVec.toNat_add, BitVec.toNat_ofNat]
  omega

/-- The check of a branch target (R131): bits 1:0 are 0 exactly for a multiple of 4. -/
theorem misaligned_eq_false_iff {a : Word} : misaligned a = false ↔ a.toNat % 4 = 0 := by
  simp [misaligned, ← BitVec.toNat_inj]

/-- Every byte of a span that lies in the window lies in the window (R53). -/
theorem inWindow_byte_of_span {p : Params} {a n b : Nat} (h : inWindow p a n = true) (hb : a ≤ b ∧ b < a + n) :
    inWindow p b 1 = true := by
  rw [inWindow_iff] at h ⊢
  omega

/-! ### The updates of a step -/

/-- A running block may move its pc to any multiple of 4. A halted one may not: its ZeroWord halt carries the pc. -/
theorem setPc_inv (h : s.Inv) (hs : s.status = .running) {a : Word} (ha : a.toNat % 4 = 0) : (s.setPc a).Inv :=
  { h with
    pcAligned := ha
    zeroWordPc := fun _ hz => by simp [hs] at hz }

/-- A register write never reaches the storage under x0 (R21), the only register the invariant speaks of. -/
theorem setReg_inv (h : s.Inv) (rd : RegIdx) (v : Word) : (s.setReg rd v).Inv := by
  by_cases hrd : rd = 0#5
  · subst hrd
    exact h
  · have hx0 := (setReg_regs_zero s rd v).trans h.x0Zero
    rw [State.setReg, if_neg hrd] at hx0 ⊢
    exact { h with x0Zero := hx0 }

/-- The bytes of a store whose whole span is in the window (R59, R60) keep the Memory canonical and inside the window. -/
theorem withMem_memWrite_inv (h : s.Inv) {a n : Nat} (hw : inWindow s.params a n = true) (v : Word) :
    ({ s with mem := memWrite s.mem a n v } : State).Inv :=
  { h with
    memWf := memWrite_wf h.memWf a n v
    memInWindow := fun c hc => (mem_memWrite hc).elim (inWindow_byte_of_span hw) (h.memInWindow c) }

/-- A halt with an exception of a raised cause (R223, R230). -/
theorem halt_trap_inv (h : s.Inv) {e : Exn} (he : raisedCode (excCode e)) : (s.halt (.trap e)).Inv :=
  { h with
    zeroWordPc := fun _ hz => by cases hz
    trapCause := fun _ ht => by cases ht; exact he }

/-- The halt of the zero word, which carries the pc (R111). -/
theorem halt_zeroWord_inv (h : s.Inv) : (s.halt (.zeroWord s.pc)).Inv :=
  { h with
    zeroWordPc := fun _ hz => by cases hz; rfl
    trapCause := fun _ ht => by cases ht }

/-! ### The step -/

/-- Each of the four shapes of an instruction's effect keeps the invariant of a running block. -/
theorem Effect.inv (he : Effect s t) (h : s.Inv) (hs : s.status = .running) : t.Inv := by
  have hpc := pcPlus4_aligned h.pcAligned
  cases he with
  | reg rd v => exact setPc_inv (setReg_inv h rd v) (by simpa using hs) hpc
  | store a n v hw => exact setPc_inv (withMem_memWrite_inv h hw v) hs hpc
  | jump npc hn =>
    refine setPc_inv h hs ?_
    rcases hn with rfl | hn
    · exact hpc
    · exact misaligned_eq_false_iff.mp hn
  | trap e hc =>
    refine halt_trap_inv h ?_
    unfold raisedCode
    omega

/-- Each of the cases of a step keeps the invariant. -/
theorem StepCase.inv (hc : StepCase s t) (h : s.Inv) : t.Inv := by
  cases hc with
  | halted => exact h
  | fetchFault e _ hf =>
    obtain ⟨k, -, rfl, -⟩ := fetchWord_error hf
    exact halt_trap_inv h (.inr (.inl rfl))
  | zeroWord => exact halt_zeroWord_inv h
  | illegal => exact halt_trap_inv h (.inr (.inr (.inl rfl)))
  | exec w i t hs _ _ he => exact (effect_of_exec he).inv h hs

/-! ### The CSR port, construction and the runs of the host -/

/-- Every entry listed after a write of entry `c` is in the bank of 4096 entries (R27). -/
theorem setCsrEntry_inBank (h : ∀ p ∈ s.csr, p.1 < 4096) (c : CsrIdx) (v : Word) :
    ∀ p ∈ (s.setCsrEntry c v).csr, p.1 < 4096 := by
  intro p hp
  rcases mem_sparseWrite hp with hk | hp
  · exact hk ▸ c.isLt
  · exact h p hp

/-- A write of an entry that is none of the three views (R30). -/
theorem setCsrEntry_inv (h : s.Inv) {c : CsrIdx} (v : Word) (hc : c ≠ csrSstatus ∧ c ≠ csrSie ∧ c ≠ csrSip) :
    (s.setCsrEntry c v).Inv :=
  { h with
    csrWf := sparseWf_sparseWrite h.csrWf
    csrInBank := setCsrEntry_inBank h.csrInBank c v
    viewsUnused := by
      obtain ⟨hstatus, hie, hip⟩ := hc
      simpa [setCsrEntry_csrEntry s c _ v h.csrWf, hstatus.symm, hie.symm, hip.symm] using h.viewsUnused }

theorem csrWrite_inv (h : s.Inv) (a : CsrIdx) (v : Word) : (csrWrite s a v).Inv := by
  obtain ⟨c, u, he, hc⟩ := csrWrite_entry s a v
  rw [he]
  exact setCsrEntry_inv h u hc

/-- The block of an image that fits (R250 to R256). -/
theorem constructed_inv {p : Params} (hp : p.valid) (initX : Vector Word 31) {image : List Byte}
    (hfit : image.length ≤ p.memSize) : (constructed p initX image).Inv where
  params := hp
  pcAligned := hp.1
  x0Zero := by simp [constructed, initRegs]
  memWf := constructed_mem_wf p initX image
  memInWindow := fun c hc => by
    rcases mem_loadImage hc with ⟨hlo, hhi⟩ | hc
    · exact (inWindow_iff _ _ _).mpr ⟨hlo, by simp only [constructed]; omega⟩
    · cases hc
  csrWf := rfl
  csrInBank := fun c hc => by cases hc
  viewsUnused := ⟨rfl, rfl, rfl⟩
  zeroWordPc := fun _ hz => by cases hz
  trapCause := fun _ ht => by cases ht

/-- Only a step and a CSR store change the block (R259), and both keep the invariant. -/
theorem hostNext_inv (h : s.Inv) (op : HostOp) : (hostNext op s).Inv := by
  cases op with
  | step =>
    obtain ⟨t, ht, hc⟩ := step_case s
    simpa only [hostNext, ht, outcomeState] using hc.inv h
  | csrStore a v => exact csrWrite_inv h a v
  | status | csrLoad | readX | readPc | lookup | dump => exact h

theorem hostRun_inv (h : s.Inv) (ops : List HostOp) : (hostRun ops s).Inv := by
  induction ops generalizing s with
  | nil => exact h
  | cons op rest ih => exact ih (hostNext_inv h op)

end Preservation

/-- Settles O18, by the cases of a step and, for an instruction, the four shapes of its effect. -/
theorem stepKeepsTheInvariant : Obligations.StepKeepsTheInvariant :=
  fun _ _ h hstep => (case_of_step hstep).inv h

/-- Settles O19: the constructed block meets the invariant, and every host operation keeps it. -/
theorem everyHostRunKeepsTheInvariant : Obligations.EveryHostRunKeepsTheInvariant := by
  intro p initX image s ops hp hs
  obtain ⟨hfit, rfl⟩ := construct_some hs
  exact hostRun_inv (constructed_inv hp initX hfit) ops

end Sys2Proof.Machine
end

section
/-! PROOFS. An instruction that commits a register result writes that register and moves the pc, and nothing else; the register
word shifts by 32 to 63 are one (O40). -/

namespace Sys2Proof.Machine

/-- What `commitReg` changes, through the reads of the state (R113, R114). -/
theorem commitReg_registerOnly (s : State) (rd : RegIdx) (v : Word) :
    RegisterOnly s ((s.setReg rd v).setPc s.pcPlus4) rd v where
  regs := fun r => by simpa using setReg_reg s r rd v
  pc := by simp [State.pcPlus4]
  bytes := fun _ => by simp
  csr := fun _ => by simp
  status := by simp
  params := by simp

/-- An instruction whose meaning is the commit of a register result. -/
theorem writesReg_of_commitReg {s : State} {i : Instr} {rd : RegIdx} {v : Word} (h : exec i s = commitReg s rd v) :
    WritesReg s i rd v := ⟨_, h, commitReg_registerOnly s rd v⟩

/-- A register word shift by 32 to 63, whichever it is: rd takes the free value, sign-extended (R181, R187). -/
theorem wordShift_from_law {s : State} {i : Instr} {op : WordShiftOp} {g : BitVec 32 → BitVec 6 → BitVec 32}
    {rd rs1 rs2 : RegIdx} (hi : exec i s = opReg32W s (wordShift op g) rd rs1 rs2) {a : BitVec 32} {n : BitVec 6}
    (ha : a.toNat = (s.reg rs1).toNat % 2 ^ 32) (hn : n.toNat = (s.reg rs2).toNat % 64) (h32 : 32 ≤ n.toNat) :
    ∃ v : Word, v.toInt = (Config.wordShiftHi op a n).toInt ∧ WritesReg s i rd v := by
  have ea : low32 (s.reg rs1) = a := BitVec.eq_of_toNat_eq (by rw [low32_toNat, ha])
  have en : regShamt (s.reg rs2) = n := BitVec.eq_of_toNat_eq (by rw [regShamt_toNat, hn])
  refine ⟨sext32 (Config.wordShiftHi op a n), sext32_toInt _, writesReg_of_commitReg ?_⟩
  rw [hi, opReg32W, wordShift_from (hn ▸ h32), ea, en]

/-- Settles O40: each of the three is a register word shift, and the amount is at least 32. -/
theorem wordShiftsFrom32TakeTheFreeValue : Obligations.WordShiftsFrom32TakeTheFreeValue :=
  fun _ _ _ _ _ _ ha hn h32 =>
    ⟨wordShift_from_law rfl ha hn h32, wordShift_from_law rfl ha hn h32, wordShift_from_law rfl ha hn h32⟩

end Sys2Proof.Machine
end

section
/-! PROOFS. Replacing the CSR bank of a state commutes with each shared operation, so with every instruction, every step and
every run (O53): no instruction reads or writes the bank (R29, R39). -/

namespace Sys2Proof.Machine

/-- The state with its CSR bank replaced. -/
def State.withCsr (s : State) (c : CsrBank) : State := { s with csr := c }

/-- A store: its bytes and pc + 4 if its span is in the window, else the StoreAMOAccessFault halt (R152). -/
theorem storeN_eq (s : State) (n : Width) (rs1 rs2 : RegIdx) (imm : BitVec 12) :
    storeN s n rs1 rs2 imm =
      if inWindow s.params (effAddr s rs1 imm).toNat (widthBytes n) then
        .next (State.setPc { s with mem := memWrite s.mem (effAddr s rs1 imm).toNat (widthBytes n) (s.reg rs2) } s.pcPlus4)
      else .next (s.halt (.trap (.storeAMOAccessFault (effAddr s rs1 imm)))) := by
  unfold storeN busStore
  by_cases hw : inWindow s.params (effAddr s rs1 imm).toNat (widthBytes n)
  · rw [if_pos hw, if_pos hw]
    rfl
  · rw [if_neg hw, if_neg hw]
    rfl

section BankReplaced

variable {s t : State} (c : CsrBank)

theorem setReg_withCsr (rd : RegIdx) (v : Word) : (s.withCsr c).setReg rd v = (s.setReg rd v).withCsr c := by
  unfold State.setReg
  split <;> rfl

/-- The write-back reads no CSR entry (R114). -/
theorem commitReg_withCsr {rd : RegIdx} {v : Word} (h : commitReg s rd v = .next t) :
    commitReg (s.withCsr c) rd v = .next (t.withCsr c) := by
  cases h
  rw [commitReg_eq, setReg_withCsr]
  rfl

/-- The end of a load, with a value or with a fault (R142). -/
theorem commitLoad_withCsr {rd : RegIdx} {r : Except Exn Word} (h : commitLoad s rd r = .next t) :
    commitLoad (s.withCsr c) rd r = .next (t.withCsr c) := by
  cases r with
  | ok v => exact commitReg_withCsr c h
  | error e =>
    cases h
    rfl

/-- A branch looks at the pc and its condition only (R131). -/
theorem branchIf_withCsr {b : Bool} {imm : BitVec 13} (h : branchIf s b imm = .next t) :
    branchIf (s.withCsr c) b imm = .next (t.withCsr c) := by
  unfold branchIf at h
  split at h
  next hb =>
    split at h
    next hm =>
      cases h
      exact (if_pos hb).trans (if_pos hm)
    next hm =>
      cases h
      exact (if_pos hb).trans (if_neg hm)
  next hb =>
    cases h
    exact if_neg hb

/-- A store looks at the registers, the parameters, the Memory and the pc only (R152). -/
theorem storeN_withCsr {n : Width} {rs1 rs2 : RegIdx} {imm : BitVec 12} (h : storeN s n rs1 rs2 imm = .next t) :
    storeN (s.withCsr c) n rs1 rs2 imm = .next (t.withCsr c) := by
  rw [storeN_eq] at h ⊢
  split at h
  next hw =>
    cases h
    exact if_pos hw
  next hw =>
    cases h
    exact if_neg hw

/-- No instruction reads or writes the CSR bank (R39). -/
theorem exec_withCsr {i : Instr} (h : exec i s = .next t) : exec i (s.withCsr c) = .next (t.withCsr c) := by
  cases i with
  | beq | bne | blt | bge | bltu | bgeu => exact branchIf_withCsr c h
  | lb | lh | lw | ld | lbu | lhu | lwu => exact commitLoad_withCsr c h
  | sb | sh | sw | sd => exact storeN_withCsr c h
  | add | sub | sll | slt | sltu | xor | srl | sra | or | and | addw | subw | sllw | srlw | sraw
  | addi | slti | sltiu | xori | ori | andi | slli | srli | srai | addiw | slliw | srliw | sraiw =>
    exact commitReg_withCsr c h

/-- No step reads or writes the CSR bank: fetch and decode do not (R110), an exception is taken without it (R232, R235), and
no instruction does (R39). -/
theorem step_withCsr (h : step s = .next t) : step (s.withCsr c) = .next (t.withCsr c) := by
  cases case_of_step h with
  | halted r hs => exact step_halted (s := s.withCsr c) hs
  | fetchFault e hs hf => exact step_fetch_error (s := s.withCsr c) hs hf
  | zeroWord hs hf => exact step_zero_word (s := s.withCsr c) hs hf
  | illegal w r hs hf hw hd => exact step_illegal (s := s.withCsr c) hs hf hw hd
  | exec w i t hs hf hd he => exact (step_exec (s := s.withCsr c) hs hf hd).trans (exec_withCsr c he)

/-- No run reads or writes the CSR bank. -/
theorem run_withCsr {k : Nat} (h : Host.Core.run Sys2Proof.core k s = .next t) :
    Host.Core.run Sys2Proof.core k (s.withCsr c) = .next (t.withCsr c) := by
  induction k generalizing s with
  | zero =>
    cases h
    rfl
  | succ k ih =>
    obtain ⟨u, hu, -⟩ := step_case s
    rw [run_succ hu] at h
    rw [run_succ (step_withCsr c hu)]
    exact ih h

end BankReplaced

/-- Settles O53, by induction on the number of steps; one step is `step_withCsr`. -/
theorem csrBankNeverInfluencesARun : Obligations.CsrBankNeverInfluencesARun :=
  fun _ _ _ c h => run_withCsr c h

end Sys2Proof.Machine
end

section
/-! PROOFS. What every step keeps: a halted block (O10), the CSR bank and the parameters (O15), an aligned pc (O16). Each is read
off the cases of a step and the four shapes of an instruction's effect. -/

namespace Sys2Proof.Machine

section StepFrame

variable {s t : State}

/-- A halted block is a fixed point of every run (R40, R115). -/
theorem run_halted {r : HaltReason} (hs : s.status = .halted r) (k : Nat) :
    Host.Core.run Sys2Proof.core k s = .next s := by
  induction k with
  | zero => rfl
  | succ k ih => rw [run_succ (step_halted hs), ih]

theorem Effect.csr_params (he : Effect s t) : t.csr = s.csr ∧ t.params = s.params := by
  cases he with
  | reg rd v => simp
  | store | jump | trap => exact ⟨rfl, rfl⟩

theorem StepCase.csr_params (hc : StepCase s t) : t.csr = s.csr ∧ t.params = s.params := by
  cases hc with
  | halted | fetchFault | zeroWord | illegal => exact ⟨rfl, rfl⟩
  | exec w i t _ _ _ he => exact (effect_of_exec he).csr_params

/-- An instruction goes to pc + 4, jumps to a checked target (R131), or leaves the pc where it is. -/
theorem Effect.pc_aligned (he : Effect s t) (h : s.pc.toNat % 4 = 0) : t.pc.toNat % 4 = 0 := by
  cases he with
  | reg | store => exact pcPlus4_aligned h
  | jump npc hn =>
    rcases hn with rfl | hn
    · exact pcPlus4_aligned h
    · exact misaligned_eq_false_iff.mp hn
  | trap => exact h

theorem StepCase.pc_aligned (hc : StepCase s t) (h : s.pc.toNat % 4 = 0) : t.pc.toNat % 4 = 0 := by
  cases hc with
  | halted | fetchFault | zeroWord | illegal => exact h
  | exec w i t _ _ _ he => exact (effect_of_exec he).pc_aligned h

end StepFrame

/-- Settles O10: construction sets Running, and a halted block steps to itself. -/
theorem haltedNeverChanges : Obligations.HaltedNeverChanges := by
  refine ⟨fun p initX image s hs => ?_, fun s r hs k => run_halted hs k⟩
  obtain ⟨-, rfl⟩ := construct_some hs
  rfl

/-- Settles O15, by the cases of a step. -/
theorem stepKeepsCsrAndParameters : Obligations.StepKeepsCsrAndParameters :=
  fun _ _ h => (case_of_step h).csr_params

/-- Settles O16, by the cases of a step. -/
theorem pcStaysAMultipleOfFour : Obligations.PcStaysAMultipleOfFour :=
  fun _ _ h hstep => (case_of_step hstep).pc_aligned h

end Sys2Proof.Machine
end

section
/-! PROOFS. Which registers an instruction can change: its destination, unless that is x0 (O48). -/

namespace Sys2Proof.Machine

/-- What a move of the pc changes, through the reads of the state (R114). -/
theorem setPc_jumpsOnly (s : State) (npc : Word) : JumpsOnly s (s.setPc npc) npc where
  regs := fun _ => rfl
  pc := rfl
  bytes := fun _ => rfl
  csr := fun _ => rfl
  status := rfl
  params := rfl

section RegisterFrame

variable {s t : State}

/-- A branch writes no register, taken or not (R131). -/
theorem branchIf_sameRegs {b : Bool} {imm : BitVec 13} (h : branchIf s b imm = .next t) : SameRegs s t := by
  unfold branchIf at h
  split at h
  · split at h
    all_goals
      cases h
      exact fun _ => rfl
  · cases h
    exact fun _ => rfl

/-- A store writes no register, whether it completes or faults (R152). -/
theorem storeN_sameRegs {n : Width} {rs1 rs2 : RegIdx} {imm : BitVec 12} (h : storeN s n rs1 rs2 imm = .next t) :
    SameRegs s t := by
  rw [storeN_eq] at h
  split at h
  all_goals
    cases h
    exact fun _ => rfl

theorem commitReg_reg_of_ne {rd r : RegIdx} {v : Word} (h : commitReg s rd v = .next t) (hr : r ≠ rd) :
    t.reg r = s.reg r := by
  cases h
  exact ((commitReg_registerOnly s rd v).regs r).trans (if_neg fun hrd => hr hrd.1)

/-- A load that faults writes no register, and one that completes writes rd (R142). -/
theorem commitLoad_reg_of_ne {rd r : RegIdx} {x : Except Exn Word} (h : commitLoad s rd x = .next t) (hr : r ≠ rd) :
    t.reg r = s.reg r := by
  cases x with
  | ok v => exact commitReg_reg_of_ne h hr
  | error e =>
    cases h
    rfl

/-- A register that is not the instruction's destination reads as before (R118). -/
theorem exec_reg_of_ne_destination {i : Instr} {r : RegIdx} (h : exec i s = .next t) (hr : destination i ≠ some r) :
    t.reg r = s.reg r := by
  cases i with
  | beq | bne | blt | bge | bltu | bgeu => exact branchIf_sameRegs h r
  | sb | sh | sw | sd => exact storeN_sameRegs h r
  | lb | lh | lw | ld | lbu | lhu | lwu => exact commitLoad_reg_of_ne h fun hrd => hr (congrArg some hrd.symm)
  | add | sub | sll | slt | sltu | xor | srl | sra | or | and | addw | subw | sllw | srlw | sraw
  | addi | slti | sltiu | xori | ori | andi | slli | srli | srai | addiw | slliw | srliw | sraiw =>
    exact commitReg_reg_of_ne h fun hrd => hr (congrArg some hrd.symm)

/-- With destination x0, x0 still reads 0 and no other register is the destination (R21). -/
theorem exec_sameRegs_of_destination_zero {i : Instr} (h : exec i s = .next t) (hi : destination i = some 0#5) :
    SameRegs s t := by
  intro r
  by_cases hr : r = 0#5
  · subst hr
    rw [reg_zero, reg_zero]
  · exact exec_reg_of_ne_destination h fun hd => hr (Option.some.inj (hd.symm.trans hi))

end RegisterFrame

/-- NOP, which is `addi x0, x0, 0`, moves the pc to pc + 4 and does nothing else (R98). -/
theorem nop_goesTo (s : State) : GoesTo s (.addi 0#5 0#5 0#12) s.pcPlus4 := ⟨_, rfl, setPc_jumpsOnly s _⟩

/-- Settles O48, from the register frame of every instruction and the NOP. -/
theorem writesToX0AreDiscarded : Obligations.WritesToX0AreDiscarded := by
  refine ⟨reg_zero, fun i s t hi h => exec_sameRegs_of_destination_zero h hi, fun s npc hnpc => ?_⟩
  have hpc : npc = s.pcPlus4 := BitVec.eq_of_toNat_eq (by simp [hnpc, State.pcPlus4])
  exact hpc ▸ nop_goesTo s

end Sys2Proof.Machine
end

section
/-! PROOFS. The CSR port: one equation per case of a read and of a write, and what a write of one entry changes (O50 to O52). -/

namespace Sys2Proof.Machine

section CsrPort

variable (s : State) (v : Word)

/-! ### Reads (R31 to R34) -/

theorem csrRead_sstatus : csrRead s csrSstatus = s.csrEntry csrMstatus &&& s.params.sstatusMask := rfl

theorem csrRead_sie : csrRead s csrSie = s.csrEntry csrMie &&& s.csrEntry csrMideleg := rfl

theorem csrRead_sip : csrRead s csrSip = s.csrEntry csrMip &&& s.csrEntry csrMideleg := rfl

/-- An index that is none of the three views, as three inequalities. -/
theorem plain_iff {a : CsrIdx} : a ∉ [0x100#12, 0x104#12, 0x144#12] ↔ a ≠ csrSstatus ∧ a ≠ csrSie ∧ a ≠ csrSip := by
  simp [csrSstatus, csrSie, csrSip]

theorem csrRead_plain {a : CsrIdx} (ha : a ≠ csrSstatus ∧ a ≠ csrSie ∧ a ≠ csrSip) : csrRead s a = s.csrEntry a := by
  obtain ⟨hstatus, hie, hip⟩ := ha
  rw [csrRead, if_neg hstatus, if_neg hie, if_neg hip]

/-- A read that is the bitwise and of an entry and a mask, bit by bit. -/
theorem csrRead_view_law {s : State} {a : CsrIdx} {entry mask : Word} (h : csrRead s a = entry &&& mask) (k : Nat) :
    (csrRead s a).getLsbD k = (entry.getLsbD k && mask.getLsbD k) := by rw [h, BitVec.getLsbD_and]

/-! ### Writes (R35 to R38) -/

theorem csrWrite_sstatus : csrWrite s csrSstatus v =
    s.setCsrEntry csrMstatus (maskedWrite (s.csrEntry csrMstatus) s.params.sstatusMask v) := rfl

theorem csrWrite_sie : csrWrite s csrSie v =
    s.setCsrEntry csrMie (maskedWrite (s.csrEntry csrMie) (s.csrEntry csrMideleg) v) := rfl

theorem csrWrite_sip : csrWrite s csrSip v =
    s.setCsrEntry csrMip (maskedWrite (s.csrEntry csrMip) (s.csrEntry csrMideleg) v) := rfl

theorem csrWrite_plain {a : CsrIdx} (ha : a ≠ csrSstatus ∧ a ≠ csrSie ∧ a ≠ csrSip) :
    csrWrite s a v = s.setCsrEntry a v := by
  obtain ⟨hstatus, hie, hip⟩ := ha
  rw [csrWrite, if_neg hstatus, if_neg hie, if_neg hip]

/-- What a write of one entry of a canonical bank changes, through the reads of the state. -/
theorem setCsrEntry_csrWritesOnly {s : State} (h : CsrBank.wf s.csr = true) (a : CsrIdx) (u : Word) :
    CsrWritesOnly s (s.setCsrEntry a u) a u where
  entry := by rw [setCsrEntry_csrEntry s a a u h, if_pos rfl]
  otherEntries := fun d hd => by rw [setCsrEntry_csrEntry s a d u h, if_neg hd]
  regs := fun _ => rfl
  pc := rfl
  bytes := fun _ => rfl
  status := rfl
  params := rfl

/-- A port write that puts `mask`'s bits of `v` into entry `b` changes that entry alone, and in it those bits alone. -/
theorem csrWrite_view_law {s : State} (h : CsrBank.wf s.csr = true) {a b : CsrIdx} {mask v : Word}
    (hw : csrWrite s a v = s.setCsrEntry b (maskedWrite (s.csrEntry b) mask v)) :
    ∃ u, CsrWritesOnly s (csrWrite s a v) b u ∧
      ∀ k, u.getLsbD k = if mask.getLsbD k then v.getLsbD k else (s.csrEntry b).getLsbD k :=
  ⟨_, hw ▸ setCsrEntry_csrWritesOnly h b _, maskedWrite_getLsbD _ _ _⟩

end CsrPort

/-- Settles O51: a plain index, sstatus and sie. -/
theorem csrWritesReplaceMaskedBits : Obligations.CsrWritesReplaceMaskedBits := by
  refine fun s v h => ⟨fun a ha => ?_, csrWrite_view_law h (csrWrite_sstatus s v), csrWrite_view_law h (csrWrite_sie s v)⟩
  rw [csrWrite_plain s v (plain_iff.mp ha)]
  exact setCsrEntry_csrWritesOnly h a v

/-- Settles O52: the view of sip, whose backing entry is mip (decision D24). -/
theorem sipWriteGoesToMip : Obligations.SipWriteGoesToMip :=
  fun s v h => csrWrite_view_law h (csrWrite_sip s v)

/-- Settles O50: each view is the bitwise and of its entry and its mask. -/
theorem csrReadsFollowTheViews : Obligations.CsrReadsFollowTheViews :=
  fun s => ⟨fun _ ha => csrRead_plain s (plain_iff.mp ha), csrRead_view_law (csrRead_sstatus s),
    csrRead_view_law (csrRead_sie s), csrRead_view_law (csrRead_sip s)⟩

end Sys2Proof.Machine
end

section
/-! PROOFS. The window check over the integers (O32), what a store leaves for a later load and a later fetch (O30, O31), and
the canonical form of a sparse table as the one table of its contents (O33). -/

namespace Sys2Proof.Machine

/-! ### Canonical tables with the same contents -/

section Canonical

variable {w k k' : Nat} {v v' : BitVec w} {l l' : List (Nat × BitVec w)}

/-- The tail of a canonical table reads as the table does, with the head's key cleared. -/
theorem sparseRead_tail (h : sparseWf ((k, v) :: l) = true) (a : Nat) :
    sparseRead l a = if a = k then 0#w else sparseRead ((k, v) :: l) a := by
  obtain ⟨-, habove, -⟩ := sparseWf_cons.mp h
  by_cases ha : a = k
  · rw [if_pos ha, sparseRead_of_keysAbove habove ha.le]
  · rw [if_neg ha, sparseRead_cons, if_neg (Ne.symm ha)]

/-- The head of a canonical table holds its lowest non-zero key, so a table with the same contents starts no later. -/
theorem head_key_le (h : sparseWf ((k, v) :: l) = true) (h' : sparseWf ((k', v') :: l') = true)
    (hread : ∀ a, sparseRead ((k, v) :: l) a = sparseRead ((k', v') :: l') a) : k' ≤ k := by
  obtain ⟨hv, -, -⟩ := sparseWf_cons.mp h
  obtain ⟨-, habove', -⟩ := sparseWf_cons.mp h'
  by_contra hlt
  have hk := hread k
  rw [sparseRead_cons, if_pos rfl, sparseRead_cons, if_neg (by omega), sparseRead_of_keysAbove habove' (by omega)] at hk
  exact hv hk

/-- A canonical table that reads 0 at every key lists nothing. -/
theorem eq_nil_of_sparseRead_zero (h : sparseWf l = true) (hread : ∀ a, sparseRead l a = 0#w) : l = [] := by
  cases l with
  | nil => rfl
  | cons p rest =>
    obtain ⟨hv, -, -⟩ := sparseWf_cons.mp h
    have hp := hread p.1
    rw [sparseRead_cons, if_pos rfl] at hp
    exact absurd hp hv

/-- Canonical tables with the same contents are the same table: their heads agree, and then their tails read alike. -/
theorem eq_of_sparseRead_eq (h : sparseWf l = true) (h' : sparseWf l' = true)
    (hread : ∀ a, sparseRead l a = sparseRead l' a) : l = l' := by
  induction l generalizing l' with
  | nil => exact (eq_nil_of_sparseRead_zero h' fun a => (hread a).symm).symm
  | cons p rest ih =>
    cases l' with
    | nil => exact eq_nil_of_sparseRead_zero h hread
    | cons p' rest' =>
      obtain ⟨k, v⟩ := p
      obtain ⟨k', v'⟩ := p'
      obtain rfl : k = k' := le_antisymm (head_key_le h' h fun a => (hread a).symm) (head_key_le h h' hread)
      obtain rfl : v = v' := by simpa [sparseRead_cons] using hread k
      obtain ⟨-, -, hrest⟩ := sparseWf_cons.mp h
      obtain ⟨-, -, hrest'⟩ := sparseWf_cons.mp h'
      rw [ih hrest hrest' fun a => by rw [sparseRead_tail h, sparseRead_tail h', hread a]]

end Canonical

/-! ### What a store leaves for the accesses after it -/

section AfterStore

variable {s t : State} {a : Word} {n : Width} {v : Word}

theorem widthBits_le (n : Width) : 8 * widthBytes n ≤ 64 := by cases n <;> decide

/-- `MemRead(a, n)` after `MemWrite(a, n, v)` gives the low n bytes of v, zero-extended (R64). -/
theorem memRead_memWrite {m : Memory} (h : Memory.wf m = true) (a n : Nat) (v : Word) :
    memRead (memWrite m a n v) a n = (v.extractLsb' 0 (8 * n)).setWidth 64 := by
  refine BitVec.eq_of_getLsbD_eq fun i hi => ?_
  rw [memRead_getLsbD _ _ _ _ hi, BitVec.getLsbD_setWidth, BitVec.getLsbD_extractLsb']
  by_cases hn : i < 8 * n
  · rw [sparseRead_memWrite h, if_pos (by omega), BitVec.getLsbD_extractLsb', Nat.add_sub_cancel_left, Nat.zero_add,
      Nat.div_add_mod]
    simp [hi, hn, Nat.mod_lt]
  · simp [hn]

/-- An unsigned load of the span just stored reads the low bytes of `v`, zero-extended (R58, R64). -/
theorem loadUnsigned_of_busStore (hm : Memory.wf s.mem = true) (h : busStore s a n v = .ok t) :
    loadUnsigned t a n = .ok ((v.extractLsb' 0 (8 * widthBytes n)).setWidth 64) := by
  obtain ⟨hw, rfl⟩ := busStore_ok h
  rw [← memRead_memWrite hm a.toNat]
  exact if_pos hw

/-- A signed load of the span just stored reads the low bytes of `v`, sign-extended (R57, R64). -/
theorem loadSigned_of_busStore (hm : Memory.wf s.mem = true) (h : busStore s a n v = .ok t) :
    loadSigned t a n = .ok ((v.extractLsb' 0 (8 * widthBytes n)).signExtend 64) := by
  obtain ⟨hw, rfl⟩ := busStore_ok h
  have hlow : (memRead (memWrite s.mem a.toNat (widthBytes n) v) a.toNat (widthBytes n)).extractLsb' 0 (8 * widthBytes n) =
      v.extractLsb' 0 (8 * widthBytes n) := by
    rw [memRead_memWrite hm, ← BitVec.setWidth_eq_extractLsb' (widthBits_le n)]
    exact (BitVec.setWidth_setWidth_of_le _ (widthBits_le n)).trans (BitVec.setWidth_eq _)
  rw [← hlow]
  exact if_pos hw

/-- With valid parameters no address of a span in the window wraps (R53, decision D13). -/
theorem toNat_add_of_inWindow {p : Params} (hp : p.valid) {a : Word} {n k : Nat} (h : inWindow p a.toNat n = true)
    (hk : k < n) : (a + BitVec.ofNat 64 k).toNat = a.toNat + k := by
  obtain ⟨-, -, htop⟩ := hp
  obtain ⟨-, hend⟩ := (inWindow_iff _ _ _).mp h
  rw [BitVec.toNat_add, BitVec.toNat_ofNat]
  omega

/-- A fetch of byte k of the span just stored reads byte k of `v` (R56, R59, R69). -/
theorem fetchByte_of_busStore (hp : s.params.valid) (hm : Memory.wf s.mem = true) (h : busStore s a n v = .ok t) {k : Nat}
    (hk : k < widthBytes n) : fetchByte t (a + BitVec.ofNat 64 k) = .ok (v.extractLsb' (8 * k) 8) := by
  obtain ⟨hw, rfl⟩ := busStore_ok h
  have hin := inWindow_byte_of_span hw (b := a.toNat + k) ⟨by omega, by omega⟩
  rw [fetchByte_eq, toNat_add_of_inWindow hp hw hk, if_pos hin, withMem_byteAt, sparseRead_memWrite hm,
    if_pos ⟨by omega, by omega⟩, Nat.add_sub_cancel_left]

end AfterStore

/-- Settles O30: the two loads of the span just stored, as numbers. -/
theorem storeThenLoadReturnsTheStoredBytes : Obligations.StoreThenLoadReturnsTheStoredBytes := by
  intro s t a n v hm h
  refine ⟨⟨_, loadUnsigned_of_busStore hm h, ?_⟩, _, loadSigned_of_busStore hm h, ?_⟩
  · rw [BitVec.toNat_setWidth_of_le (widthBits_le n), BitVec.extractLsb'_toNat, Nat.shiftRight_zero]
  · rw [BitVec.toInt_signExtend_of_le (widthBits_le n), BitVec.toInt_eq_toNat_bmod, BitVec.extractLsb'_toNat,
      Nat.shiftRight_zero, Int.natCast_emod, Int.emod_bmod]

/-- Settles O31: the fetched byte is the stored one, as a number. -/
theorem storeIsSeenByFetch : Obligations.StoreIsSeenByFetch := by
  intro s t a n v k hp hm h hk
  refine ⟨_, fetchByte_of_busStore hp hm h hk, ?_⟩
  rw [BitVec.extractLsb'_toNat, Nat.shiftRight_eq_div_pow, Nat.pow_mul]

/-- Settles O33: canonical tables with the same contents are equal. -/
theorem canonicalMemoriesThatReadAlikeAreEqual : Obligations.CanonicalMemoriesThatReadAlikeAreEqual :=
  fun _ _ h h' hread => eq_of_sparseRead_eq h h' hread

/-- Settles O32: the check compares the span's ends as numbers, and the window ends at 2^64 or below. -/
theorem windowCheckNeverWraps : Obligations.WindowCheckNeverWraps := by
  refine fun p a n hn => ⟨?_, fun hp hwrap => ?_⟩
  · rw [inWindow_iff]
    omega
  · obtain ⟨-, -, htop⟩ := hp
    rw [Bool.eq_false_iff, Ne, inWindow_iff]
    omega

end Sys2Proof.Machine
end

section
/-! PROOFS. Decoding and encoding are inverse to each other: `decodeWord w = .ok i` exactly when i is well-formed and w is its
word. First the dispatch on the opcode, then one lemma per format for each direction (O1 to O3). -/

namespace Sys2Proof

section RoundTrip

variable {w : InstWord} {i : Instr} {f3 : BitVec 3} {f6 : BitVec 6} {f7 op : BitVec 7}

/-! ### The first dispatch (R88), one equation per class -/

theorem decodeWord_branch (h : fieldOpcode w = opBranch) : decodeWord w = decodeBranch w := by
  unfold decodeWord; rw [h]; rfl

theorem decodeWord_load (h : fieldOpcode w = opLoad) : decodeWord w = decodeLoad w := by
  unfold decodeWord; rw [h]; rfl

theorem decodeWord_store (h : fieldOpcode w = opStore) : decodeWord w = decodeStore w := by
  unfold decodeWord; rw [h]; rfl

theorem decodeWord_reg (h : fieldOpcode w = opReg) : decodeWord w = decodeReg w := by
  unfold decodeWord; rw [h]; rfl

theorem decodeWord_reg32 (h : fieldOpcode w = opReg32) : decodeWord w = decodeReg32 w := by
  unfold decodeWord; rw [h]; rfl

theorem decodeWord_imm (h : fieldOpcode w = opImm) : decodeWord w = decodeImm w := by
  unfold decodeWord; rw [h]; rfl

theorem decodeWord_imm32 (h : fieldOpcode w = opImm32) : decodeWord w = decodeImm32 w := by
  unfold decodeWord; rw [h]; rfl

/-! ### From the instruction to the word and back -/

/-- The word of a well-formed instruction decodes to it: the opcode selects the class, and there the function fields of the
encoded word select the constructor and the other fields give its operands. -/
theorem decodeWord_encode (h : i.wellFormed = true) : decodeWord (encode i) = .ok i := by
  cases i with
  | beq rs1 rs2 imm | bne rs1 rs2 imm | blt rs1 rs2 imm | bge rs1 rs2 imm | bltu rs1 rs2 imm | bgeu rs1 rs2 imm =>
    refine (decodeWord_branch (fieldOpcode_encodeB ..)).trans ?_
    simp [decodeBranch, fieldImmB_encodeB _ _ _ _ _ h]
  | lb | lh | lw | ld | lbu | lhu | lwu =>
    refine (decodeWord_load (fieldOpcode_encodeI ..)).trans ?_
    simp [decodeLoad]
  | sb | sh | sw | sd =>
    refine (decodeWord_store (fieldOpcode_encodeS ..)).trans ?_
    simp [decodeStore]
  | add | sub | sll | slt | sltu | xor | srl | sra | or | and =>
    refine (decodeWord_reg (fieldOpcode_encodeR ..)).trans ?_
    simp [decodeReg]
  | addw | subw | sllw | srlw | sraw =>
    refine (decodeWord_reg32 (fieldOpcode_encodeR ..)).trans ?_
    simp [decodeReg32]
  | addi | slti | sltiu | xori | ori | andi =>
    refine (decodeWord_imm (fieldOpcode_encodeI ..)).trans ?_
    simp [decodeImm]
  | slli | srli | srai =>
    refine (decodeWord_imm (fieldOpcode_encodeShift6 ..)).trans ?_
    simp [decodeImm]
  | addiw =>
    refine (decodeWord_imm32 (fieldOpcode_encodeI ..)).trans ?_
    simp [decodeImm32]
  | slliw | srliw | sraiw =>
    refine (decodeWord_imm32 (fieldOpcode_encodeShift5 ..)).trans ?_
    simp [decodeImm32]

/-- The four bytes of a word make the word again (R52). -/
theorem leWord_wordBytes (w : InstWord) :
    leWord (w.extractLsb' 0 8) (w.extractLsb' 8 8) (w.extractLsb' 16 8) (w.extractLsb' 24 8) = w := by
  have j0 : w.extractLsb' 24 8 ++ w.extractLsb' 16 8 = w.extractLsb' 16 16 := extract_join w 16 8 8
  have j1 : w.extractLsb' 16 16 ++ w.extractLsb' 8 8 = w.extractLsb' 8 24 := extract_join w 8 16 8
  have j2 : w.extractLsb' 8 24 ++ w.extractLsb' 0 8 = w.extractLsb' 0 32 := extract_join w 0 24 8
  unfold leWord
  rw [j0, j1, j2]
  exact extract_self w

/-- Decoding the bytes of a word that decodes consumes those four bytes and no more (R100). -/
theorem decodeBytes_wordBytes (h : decodeWord w = .ok i) (rest : List Byte) :
    decodeBytes (wordBytes w ++ rest) = .ok (i, rest) := by
  simp only [wordBytes, List.cons_append, List.nil_append, decodeBytes, leWord_wordBytes, h]

/-! ### A word rebuilt from its fields, format by format, with the fields the dispatch fixes given -/

theorem encodeB_of_fields (h3 : fieldFunct3 w = f3) (ho : fieldOpcode w = op) :
    encodeB (fieldImmB w) (fieldRs2 w) (fieldRs1 w) f3 op = w := by
  subst h3 ho
  exact encodeB_fields w

theorem encodeI_of_fields (h3 : fieldFunct3 w = f3) (ho : fieldOpcode w = op) :
    encodeI (fieldImmI w) (fieldRs1 w) f3 (fieldRd w) op = w := by
  subst h3 ho
  exact encodeI_fields w

theorem encodeS_of_fields (h3 : fieldFunct3 w = f3) (ho : fieldOpcode w = op) :
    encodeS (fieldImmS w) (fieldRs2 w) (fieldRs1 w) f3 op = w := by
  subst h3 ho
  exact encodeS_fields w

theorem encodeR_of_fields (h : fieldFunct3 w = f3 ∧ fieldFunct7 w = f7) (ho : fieldOpcode w = op) :
    encodeR f7 (fieldRs2 w) (fieldRs1 w) f3 (fieldRd w) op = w := by
  obtain ⟨rfl, rfl⟩ := h
  subst ho
  exact encodeR_fields w

theorem encodeShift6_of_fields (h : fieldFunct3 w = f3 ∧ fieldFunct6 w = f6) (ho : fieldOpcode w = op) :
    encodeShift6 f6 (fieldShamt6 w) (fieldRs1 w) f3 (fieldRd w) op = w := by
  obtain ⟨rfl, rfl⟩ := h
  subst ho
  exact encodeShift6_fields w

theorem encodeShift5_of_fields (h : fieldFunct3 w = f3 ∧ fieldFunct7 w = f7) (ho : fieldOpcode w = op) :
    encodeShift5 f7 (fieldShamt5 w) (fieldRs1 w) f3 (fieldRd w) op = w := by
  obtain ⟨rfl, rfl⟩ := h
  subst ho
  exact encodeShift5_fields w

/-! ### From the word to the instruction and back, class by class -/

theorem encode_of_decodeBranch (ho : fieldOpcode w = opBranch) (h : decodeBranch w = .ok i) :
    i.wellFormed = true ∧ encode i = w := by
  unfold decodeBranch at h
  split_ifs at h
  all_goals
    cases h
    exact ⟨evenOffset_fieldImmB w, encodeB_of_fields ‹_› ho⟩

theorem encode_of_decodeLoad (ho : fieldOpcode w = opLoad) (h : decodeLoad w = .ok i) :
    i.wellFormed = true ∧ encode i = w := by
  unfold decodeLoad at h
  split_ifs at h
  all_goals
    cases h
    exact ⟨rfl, encodeI_of_fields ‹_› ho⟩

theorem encode_of_decodeStore (ho : fieldOpcode w = opStore) (h : decodeStore w = .ok i) :
    i.wellFormed = true ∧ encode i = w := by
  unfold decodeStore at h
  split_ifs at h
  all_goals
    cases h
    exact ⟨rfl, encodeS_of_fields ‹_› ho⟩

theorem encode_of_decodeReg (ho : fieldOpcode w = opReg) (h : decodeReg w = .ok i) :
    i.wellFormed = true ∧ encode i = w := by
  unfold decodeReg at h
  split_ifs at h
  all_goals
    cases h
    exact ⟨rfl, encodeR_of_fields ‹_› ho⟩

theorem encode_of_decodeReg32 (ho : fieldOpcode w = opReg32) (h : decodeReg32 w = .ok i) :
    i.wellFormed = true ∧ encode i = w := by
  unfold decodeReg32 at h
  split_ifs at h
  all_goals
    cases h
    exact ⟨rfl, encodeR_of_fields ‹_› ho⟩

theorem encode_of_decodeImm (ho : fieldOpcode w = opImm) (h : decodeImm w = .ok i) :
    i.wellFormed = true ∧ encode i = w := by
  unfold decodeImm at h
  split_ifs at h
  all_goals cases h
  -- the six immediate forms come first in the dispatch, then the three shifts
  iterate 6 exact ⟨rfl, encodeI_of_fields ‹_› ho⟩
  all_goals exact ⟨rfl, encodeShift6_of_fields ‹_› ho⟩

theorem encode_of_decodeImm32 (ho : fieldOpcode w = opImm32) (h : decodeImm32 w = .ok i) :
    i.wellFormed = true ∧ encode i = w := by
  unfold decodeImm32 at h
  split_ifs at h
  all_goals cases h
  · exact ⟨rfl, encodeI_of_fields ‹_› ho⟩
  all_goals exact ⟨rfl, encodeShift5_of_fields ‹_› ho⟩

/-- No bit of a decoded word is dropped (R81 to R97). -/
theorem encode_of_decodeWord (h : decodeWord w = .ok i) : i.wellFormed = true ∧ encode i = w := by
  unfold decodeWord at h
  split_ifs at h with hbranch hload hstore hreg hreg32 himm himm32
  · exact encode_of_decodeBranch hbranch h
  · exact encode_of_decodeLoad hload h
  · exact encode_of_decodeStore hstore h
  · exact encode_of_decodeReg hreg h
  · exact encode_of_decodeReg32 hreg32 h
  · exact encode_of_decodeImm himm h
  · exact encode_of_decodeImm32 himm32 h

end RoundTrip

/-- Settles O1, by decoding the ten words. -/
theorem sampleWordOfEachClassDecodes : Obligations.SampleWordOfEachClassDecodes := by
  unfold Obligations.SampleWordOfEachClassDecodes
  decide

/-- Settles O2: the bytes make the encoded word again, and it decodes to the instruction. -/
theorem decodeOfEncodeIsTheInstruction : Obligations.DecodeOfEncodeIsTheInstruction :=
  fun _ rest h => decodeBytes_wordBytes (decodeWord_encode h) rest

/-- Settles O3, class by class: each format rebuilds the word from its fields. -/
theorem encodeOfDecodeIsTheWord : Obligations.EncodeOfDecodeIsTheWord :=
  fun _ _ h => encode_of_decodeWord h

end Sys2Proof
end

section
/-! PROOFS. Decoding and the opcode table agree (O4). A decoded word is an encoded one, which matches its row; a word that matches
a row has the function fields of the row's encoded instruction, and those select its constructor. -/

namespace Sys2Proof

section TableRow

variable {w w' : InstWord}

/-- Every encoded word matches its row, constructor by constructor. -/
theorem encode_matches_opcodeRow (i : Instr) : encode i &&& (opcodeRow i).1 = (opcodeRow i).2 := by
  open Laws.OpcodeRow in
  cases i
  exacts [beq .., bne .., blt .., bge .., bltu .., bgeu .., lb .., lh .., lw .., ld .., lbu .., lhu .., lwu .., sb .., sh ..,
    sw .., sd .., add .., sub .., sll .., slt .., sltu .., xor .., srl .., sra .., or .., and .., addw .., subw .., sllw ..,
    srlw .., sraw .., addi .., slti .., sltiu .., xori .., ori .., andi .., slli .., srli .., srai .., addiw .., slliw ..,
    srliw .., sraiw ..]

/-! Words that agree under a row's mask have the same function fields. -/

theorem fields_eq_of_mask_funct3 (h : w &&& 0x0000707F#32 = w' &&& 0x0000707F#32) :
    fieldOpcode w = fieldOpcode w' ∧ fieldFunct3 w = fieldFunct3 w' := by
  rw [mask_opcode_funct3, mask_opcode_funct3] at h
  exact ⟨by simpa using congrArg fieldOpcode h, by simpa using congrArg fieldFunct3 h⟩

theorem fields_eq_of_mask_funct7 (h : w &&& 0xFE00707F#32 = w' &&& 0xFE00707F#32) :
    fieldOpcode w = fieldOpcode w' ∧ fieldFunct3 w = fieldFunct3 w' ∧ fieldFunct7 w = fieldFunct7 w' := by
  rw [mask_opcode_funct3_funct7, mask_opcode_funct3_funct7] at h
  exact ⟨by simpa using congrArg fieldOpcode h, by simpa using congrArg fieldFunct3 h,
    by simpa using congrArg fieldFunct7 h⟩

theorem fields_eq_of_mask_funct6 (h : w &&& 0xFC00707F#32 = w' &&& 0xFC00707F#32) :
    fieldOpcode w = fieldOpcode w' ∧ fieldFunct3 w = fieldFunct3 w' ∧ fieldFunct6 w = fieldFunct6 w' := by
  rw [mask_opcode_funct3_funct6, mask_opcode_funct3_funct6] at h
  exact ⟨by simpa using congrArg fieldOpcode h, by simpa using congrArg fieldFunct3 h,
    by simpa using congrArg fieldFunct6 h⟩

/-- A word that matches a row decodes to an instruction of that row: under the mask it agrees with the row's encoded instruction,
so its opcode selects the same class and its function fields the same constructor. -/
theorem decodeWord_of_opcodeRow {j : Instr} (h : w &&& (opcodeRow j).1 = (opcodeRow j).2) :
    ∃ i, decodeWord w = .ok i ∧ opcodeRow i = opcodeRow j := by
  have hw := h.trans (encode_matches_opcodeRow j).symm
  cases j with
  | beq | bne | blt | bge | bltu | bgeu =>
    obtain ⟨ho, h3⟩ := fields_eq_of_mask_funct3 hw
    rw [decodeWord_branch (ho.trans (fieldOpcode_encodeB ..))]
    simp [decodeBranch, h3, encode, opcodeRow]
  | lb | lh | lw | ld | lbu | lhu | lwu =>
    obtain ⟨ho, h3⟩ := fields_eq_of_mask_funct3 hw
    rw [decodeWord_load (ho.trans (fieldOpcode_encodeI ..))]
    simp [decodeLoad, h3, encode, opcodeRow]
  | sb | sh | sw | sd =>
    obtain ⟨ho, h3⟩ := fields_eq_of_mask_funct3 hw
    rw [decodeWord_store (ho.trans (fieldOpcode_encodeS ..))]
    simp [decodeStore, h3, encode, opcodeRow]
  | add | sub | sll | slt | sltu | xor | srl | sra | or | and =>
    obtain ⟨ho, h3, h7⟩ := fields_eq_of_mask_funct7 hw
    rw [decodeWord_reg (ho.trans (fieldOpcode_encodeR ..))]
    simp [decodeReg, h3, h7, encode, opcodeRow]
  | addw | subw | sllw | srlw | sraw =>
    obtain ⟨ho, h3, h7⟩ := fields_eq_of_mask_funct7 hw
    rw [decodeWord_reg32 (ho.trans (fieldOpcode_encodeR ..))]
    simp [decodeReg32, h3, h7, encode, opcodeRow]
  | addi | slti | sltiu | xori | ori | andi =>
    obtain ⟨ho, h3⟩ := fields_eq_of_mask_funct3 hw
    rw [decodeWord_imm (ho.trans (fieldOpcode_encodeI ..))]
    simp [decodeImm, h3, encode, opcodeRow]
  | slli | srli | srai =>
    obtain ⟨ho, h3, h6⟩ := fields_eq_of_mask_funct6 hw
    rw [decodeWord_imm (ho.trans (fieldOpcode_encodeShift6 ..))]
    simp [decodeImm, h3, h6, encode, opcodeRow]
  | addiw =>
    obtain ⟨ho, h3⟩ := fields_eq_of_mask_funct3 hw
    rw [decodeWord_imm32 (ho.trans (fieldOpcode_encodeI ..))]
    simp [decodeImm32, h3, encode, opcodeRow]
  | slliw | srliw | sraiw =>
    obtain ⟨ho, h3, h7⟩ := fields_eq_of_mask_funct7 hw
    rw [decodeWord_imm32 (ho.trans (fieldOpcode_encodeShift5 ..))]
    simp [decodeImm32, h3, h7, encode, opcodeRow]

/-- A decoded word matches the row of its instruction, because it is that instruction's word. -/
theorem opcodeRow_of_decodeWord {i : Instr} (h : decodeWord w = .ok i) : w &&& (opcodeRow i).1 = (opcodeRow i).2 := by
  obtain ⟨-, rfl⟩ := encode_of_decodeWord h
  exact encode_matches_opcodeRow i

end TableRow

/-- Settles O4: a decoded word matches its row since it is an encoded word, and a matching word takes the dispatch of the row. -/
theorem decodeAgreesWithTheOpcodeTable : Obligations.DecodeAgreesWithTheOpcodeTable :=
  fun _ => ⟨fun _ h => opcodeRow_of_decodeWord h, fun _ h => decodeWord_of_opcodeRow h⟩

end Sys2Proof
end

section
/-! PROOFS. The word of a fetch whose bytes are in the window, and the halt on a word that matches no row of the opcode table
(O7). -/

namespace Sys2Proof.Machine

/-- A byte put below a value is the least significant digit of the two in base 256. -/
theorem append_byte_toNat {n : Nat} (x : BitVec n) (b : Byte) : (x ++ b).toNat = b.toNat + 256 * x.toNat := by
  rw [BitVec.toNat_append, ← Nat.shiftLeft_add_eq_or_of_lt b.isLt, Nat.shiftLeft_eq]
  omega

/-- The number of a word is that of its four bytes, the first the least significant (R52). -/
theorem leWord_toNat (b0 b1 b2 b3 : Byte) : (leWord b0 b1 b2 b3).toNat = leNat [b0, b1, b2, b3] := by
  simp only [leWord, append_byte_toNat, leNat, Nat.mul_zero, Nat.add_zero]

@[simp] theorem fetchAddr_zero (s : State) : fetchAddr s 0 = s.pc := BitVec.add_zero _

/-- The four bytes that a fetch reads, written out (R110). -/
theorem fetchBytes_eq (s : State) : fetchBytes s = [s.byteAt s.pc.toNat, s.byteAt (s.pc + 1#64).toNat,
    s.byteAt (s.pc + 2#64).toNat, s.byteAt (s.pc + 3#64).toNat] := by
  have hr : List.range 4 = [0, 1, 2, 3] := rfl
  simp only [fetchBytes, hr, List.map_cons, List.map_nil, fetchAddr_zero]
  rfl

/-- A fetch whose four bytes are in the window gives the word whose number is theirs (R110). -/
theorem fetchWord_of_fetchInWindow {s : State} (h : FetchInWindow s) :
    ∃ w, fetchWord s = .ok w ∧ w.toNat = leNat (fetchBytes s) := by
  have h0 : inWindow s.params s.pc.toNat 1 = true := fetchAddr_zero s ▸ h 0 (by decide)
  refine ⟨_, fetchWord_ok h0 (h 1 (by decide)) (h 2 (by decide)) (h 3 (by decide)), ?_⟩
  rw [leWord_toNat, fetchBytes_eq]

/-- The halt of a block changes its status alone (R226, R230). -/
theorem halt_haltsOnly (s : State) (r : HaltReason) : HaltsOnly s (s.halt r) r where
  status := rfl
  regs := fun _ => rfl
  pc := rfl
  bytes := fun _ => rfl
  csr := fun _ => rfl
  params := rfl

/-- Settles O7: a word of no row does not decode, for a decoded word matches its instruction's row. -/
theorem stepOnAnUnmappedWordTraps : Obligations.StepOnAnUnmappedWordTraps := by
  intro s w hs hin hw hne hrow
  obtain ⟨u, hf, hu⟩ := fetchWord_of_fetchInWindow hin
  obtain rfl : u = w := BitVec.eq_of_toNat_eq (hu.trans hw.symm)
  rcases hd : decodeWord u with r | i
  · exact ⟨_, zext32 u, step_illegal hs hf hne hd, BitVec.toNat_setWidth_of_le (by decide), halt_haltsOnly s _⟩
  · exact absurd (opcodeRow_of_decodeWord hd) (hrow i)

end Sys2Proof.Machine
end

section
/-! PROOFS. The fetch and the halts of a step: the bytes at the pc as an instruction, the zero word and the first byte out of the
window (O5, O6, O8, O9), a next state from every state (O11), and a halt that changes the status alone (O12). -/

namespace Sys2Proof.Machine

section Fetch

variable {s : State} {i : Instr}

/-! ### The fetch as four byte fetches (R110) -/

theorem fetchByte_inside {a : Word} (h : inWindow s.params a.toNat 1 = true) : fetchByte s a = .ok (s.byteAt a.toNat) :=
  if_pos h

theorem fetchByte_outside {a : Word} (h : inWindow s.params a.toNat 1 = false) :
    fetchByte s a = .error (.instructionAccessFault a) := by
  rw [fetchByte_eq, h]
  rfl

/-- The fetch faults at the first of its four bytes that is out of the window (R110). -/
theorem fetchWord_first_outside {k : Nat} (hk : k < 4)
    (hin : ∀ j, j < k → inWindow s.params (fetchAddr s j).toNat 1 = true)
    (hout : inWindow s.params (fetchAddr s k).toNat 1 = false) :
    fetchWord s = .error (.instructionAccessFault (fetchAddr s k)) := by
  have hok (j : Nat) (hj : j < k) := fetchByte_inside (hin j hj)
  have hfault := fetchByte_outside hout
  have h0 := fetchAddr_zero s
  unfold fetchAddr at *
  interval_cases k
  · rw [h0] at hfault ⊢
    rw [fetchWord, hfault]
  all_goals
    have hok0 := hok 0 (by decide)
    rw [h0] at hok0
  · simp only [fetchWord, hok0, hfault]
  · simp only [fetchWord, hok0, hok 1 (by decide), hfault]
  · simp only [fetchWord, hok0, hok 1 (by decide), hok 2 (by decide), hfault]

/-- A fetch whose first byte is out of the window faults at the pc (R110). -/
theorem fetchWord_pc_outside (hout : inWindow s.params s.pc.toNat 1 = false) :
    fetchWord s = .error (.instructionAccessFault s.pc) := by
  rw [fetchWord, fetchByte_outside hout]

/-- A window whose ends are multiples of 4 holds the whole aligned word of each of its bytes at a multiple of 4. -/
theorem inWindow_word_of_aligned {p : Params} (hp : p.valid) (hsize : p.memSize % 4 = 0) {a : Nat} (ha : a % 4 = 0)
    (h : inWindow p a 1 = true) : inWindow p a 4 = true := by
  obtain ⟨hbase, -, -⟩ := hp
  rw [inWindow_iff] at h ⊢
  omega

/-- With aligned parameters and an aligned pc in the window, all four bytes of the fetch are in the window. -/
theorem fetchInWindow_of_aligned (hp : s.params.valid) (hsize : s.params.memSize % 4 = 0) (hpc : s.pc.toNat % 4 = 0)
    (h : inWindow s.params s.pc.toNat 1 = true) : FetchInWindow s := by
  intro k hk
  have hspan := inWindow_word_of_aligned hp hsize hpc h
  rw [fetchAddr, toNat_add_of_inWindow hp hspan hk]
  exact inWindow_byte_of_span hspan ⟨by omega, by omega⟩

/-- With aligned parameters and an aligned pc, a fetch that faults does so at its first byte. -/
theorem fetchWord_error_of_aligned {e : Exn} (hp : s.params.valid) (hsize : s.params.memSize % 4 = 0)
    (hpc : s.pc.toNat % 4 = 0) (h : fetchWord s = .error e) : e = .instructionAccessFault s.pc := by
  have hout : inWindow s.params s.pc.toNat 1 = false := by
    by_contra hin
    obtain ⟨w, hw, -⟩ := fetchWord_of_fetchInWindow (fetchInWindow_of_aligned hp hsize hpc (eq_true_of_ne_false hin))
    rw [hw] at h
    cases h
  rw [fetchWord_pc_outside hout] at h
  cases h
  rfl

/-! ### The step on what the fetch gives -/

/-- A step whose fetch faults sets the status alone (R115, R230). -/
theorem step_haltsOnly_of_fetch_error {e : Exn} (hs : s.status = .running) (h : fetchWord s = .error e) :
    ∃ t, step s = .next t ∧ HaltsOnly s t (.trap e) :=
  ⟨_, step_fetch_error hs h, halt_haltsOnly s _⟩

/-- Decoding a byte sequence decodes the word of its first four bytes (R100). -/
theorem decodeWord_of_decodeBytes {b0 b1 b2 b3 : Byte} {bs rest : List Byte}
    (h : decodeBytes (b0 :: b1 :: b2 :: b3 :: bs) = .ok (i, rest)) : decodeWord (leWord b0 b1 b2 b3) = .ok i := by
  rw [decodeBytes] at h
  split at h
  next hd =>
    cases h
    exact hd
  next => cases h

/-- The fetched word is the instruction that the four bytes at the pc decode to (R110, R112). -/
theorem fetchWord_of_decodeBytes (hin : FetchInWindow s) {rest : List Byte}
    (h : decodeBytes (fetchBytes s) = .ok (i, rest)) : ∃ w, fetchWord s = .ok w ∧ decodeWord w = .ok i := by
  obtain ⟨w, hf, hw⟩ := fetchWord_of_fetchInWindow hin
  rw [fetchBytes_eq] at h hw
  rw [← leWord_toNat] at hw
  exact ⟨w, hf, BitVec.eq_of_toNat_eq hw ▸ decodeWord_of_decodeBytes h⟩

/-- A step runs the instruction that the four bytes at the pc decode to (R112, R115). -/
theorem step_of_decodeBytes (hs : s.status = .running) (hin : FetchInWindow s) {rest : List Byte}
    (h : decodeBytes (fetchBytes s) = .ok (i, rest)) : step s = exec i s := by
  obtain ⟨w, hf, hd⟩ := fetchWord_of_decodeBytes hin h
  exact step_exec hs hf hd

/-! ### The halts -/

variable {t : State} {r : HaltReason}

/-- Of the four shapes of an instruction's effect only the trap halts a running block, and it sets the status alone (R225). -/
theorem Effect.eq_halt (he : Effect s t) (hs : s.status = .running) (ht : t.status = .halted r) : t = s.halt r := by
  cases he with
  | reg | store | jump => simp [hs] at ht
  | trap e =>
    cases ht
    rfl

/-- A step that halts a running block sets the status alone (R111, R115). -/
theorem StepCase.eq_halt (hc : StepCase s t) (hs : s.status = .running) (ht : t.status = .halted r) : t = s.halt r := by
  cases hc with
  | halted _ hs' => simp [hs] at hs'
  | fetchFault | zeroWord | illegal =>
    cases ht
    rfl
  | exec w i t _ _ _ he => exact (effect_of_exec he).eq_halt hs ht

/-- The host's reply to a step is read from the state the step answers (R115, log 4). -/
theorem hostReply_step (h : step s = .next t) : hostReply .step s = .step (stepReply t) := by
  simp only [hostReply, hostNext, h, outcomeState]

theorem stepReply_halted (h : t.status = .halted r) : stepReply t = .halts r := by
  rw [stepReply, h]

end Fetch

/-- Settles O8: the word of the four bytes, the first byte out of the window, and the aligned fetch, which is all in or starts
out. -/
theorem fetchReadsFourBytesOrFaultsAtTheFirstOutside : Obligations.FetchReadsFourBytesOrFaultsAtTheFirstOutside :=
  fun _ => ⟨fetchWord_of_fetchInWindow, fun _ hk hin hout => fetchWord_first_outside hk hin hout,
    fun _ hp hsize hpc h => fetchWord_error_of_aligned hp hsize hpc h⟩

/-- Settles O9: a fetch fault is the halt of the step. -/
theorem pcOutOfWindowHaltsTheRun : Obligations.PcOutOfWindowHaltsTheRun :=
  ⟨fun _ hs hout => step_haltsOnly_of_fetch_error hs (fetchWord_pc_outside hout),
    fun _ _ hs hk hin hout => step_haltsOnly_of_fetch_error hs (fetchWord_first_outside hk hin hout)⟩

/-- Settles O11, by the cases of a step and the effects of an instruction. -/
theorem stepAlwaysAnswersANextState : Obligations.StepAlwaysAnswersANextState := by
  refine ⟨fun s => ?_, fun i s => ?_⟩
  · obtain ⟨t, ht, -⟩ := step_case s
    exact ⟨t, ht⟩
  · obtain ⟨t, ht, -⟩ := exec_effect i s
    exact ⟨t, ht⟩

/-- Settles O12: every halt of a running block is `State.halt`, and the host reads its reason from the status. -/
theorem everyHaltIsPrecise : Obligations.EveryHaltIsPrecise := by
  refine ⟨takeException_eq, fun s t r hs h ht => ⟨(case_of_step h).eq_halt hs ht, ?_, congrArg HostReply.status ht⟩⟩
  rw [hostReply_step h, stepReply_halted ht]

/-- Settles O5: the four bytes make the fetched word, and a decoded word is that of a well-formed instruction. -/
theorem stepRunsTheDecodedInstruction : Obligations.StepRunsTheDecodedInstruction := by
  intro s i hs hin h
  obtain ⟨w, hf, hd⟩ := fetchWord_of_decodeBytes hin h
  obtain ⟨hwf, -⟩ := encode_of_decodeWord hd
  exact ⟨hwf, step_exec hs hf hd⟩

/-- Settles O6: four zero bytes make the zero word. -/
theorem stepOnTheZeroWordHalts : Obligations.StepOnTheZeroWordHalts := by
  intro s hs hin hzero
  obtain ⟨w, hf, hw⟩ := fetchWord_of_fetchInWindow hin
  obtain rfl : w = 0#32 := BitVec.eq_of_toNat_eq (hw.trans hzero)
  exact ⟨_, step_zero_word hs hf, halt_haltsOnly s _⟩

end Sys2Proof.Machine
end

section
/-! PROOFS. Placing a word at the pc: what its four byte writes change, and the next step, which runs the placed instruction
(O22). -/

namespace Sys2Proof.Machine

section Placing

variable {s : State}

/-- The four addresses of a fetch are distinct, wrapped or not (R110). -/
theorem fetchAddr_inj {j k : Nat} (hj : j < 4) (hk : k < 4) : (fetchAddr s j).toNat = (fetchAddr s k).toNat ↔ j = k := by
  simp only [fetchAddr, BitVec.toNat_add, BitVec.toNat_ofNat]
  omega

/-- The Memory after the four byte writes of a placed word, byte k of `inst` at the k-th fetch address. -/
def placedMem (s : State) (inst : InstWord) : Memory :=
  sparseWrite (sparseWrite (sparseWrite (sparseWrite s.mem (fetchAddr s 0).toNat (inst.extractLsb' 0 8))
    (fetchAddr s 1).toNat (inst.extractLsb' 8 8)) (fetchAddr s 2).toNat (inst.extractLsb' 16 8))
    (fetchAddr s 3).toNat (inst.extractLsb' 24 8)

/-- Placing a word changes the Memory and the status alone (log 7). -/
theorem placeWord_eq_placedMem (hin : FetchInWindow s) (inst : InstWord) :
    placeWord s inst = { s with mem := placedMem s inst, status := .running } := by
  have h0 : inWindow s.params s.pc.toNat 1 = true := fetchAddr_zero s ▸ hin 0 (by decide)
  rw [placedMem, fetchAddr_zero]
  exact placeWord_eq h0 (hin 1 (by decide)) (hin 2 (by decide)) (hin 3 (by decide)) inst

/-- What a byte reads after a word is placed: the last write to its address, or what it read before. -/
theorem sparseRead_placedMem (hm : Memory.wf s.mem = true) (inst : InstWord) (a : Nat) :
    sparseRead (placedMem s inst) a =
      if a = (fetchAddr s 3).toNat then inst.extractLsb' 24 8
      else if a = (fetchAddr s 2).toNat then inst.extractLsb' 16 8
      else if a = (fetchAddr s 1).toNat then inst.extractLsb' 8 8
      else if a = (fetchAddr s 0).toNat then inst.extractLsb' 0 8
      else sparseRead s.mem a := by
  have h0 := sparseWf_sparseWrite (k := (fetchAddr s 0).toNat) (v := inst.extractLsb' 0 8) hm
  have h1 := sparseWf_sparseWrite (k := (fetchAddr s 1).toNat) (v := inst.extractLsb' 8 8) h0
  have h2 := sparseWf_sparseWrite (k := (fetchAddr s 2).toNat) (v := inst.extractLsb' 16 8) h1
  rw [placedMem, sparseRead_sparseWrite h2, sparseRead_sparseWrite h1, sparseRead_sparseWrite h0,
    sparseRead_sparseWrite hm]

theorem sparseRead_placedMem_fetchAddr (hm : Memory.wf s.mem = true) (inst : InstWord) {k : Nat} (hk : k < 4) :
    sparseRead (placedMem s inst) (fetchAddr s k).toNat = inst.extractLsb' (8 * k) 8 := by
  simp only [sparseRead_placedMem hm, fetchAddr_inj hk (show 0 < 4 by decide), fetchAddr_inj hk (show 1 < 4 by decide),
    fetchAddr_inj hk (show 2 < 4 by decide), fetchAddr_inj hk (show 3 < 4 by decide)]
  interval_cases k <;> rfl

theorem sparseRead_placedMem_of_ne (hm : Memory.wf s.mem = true) (inst : InstWord) {a : Nat}
    (ha : ∀ k, k < 4 → a ≠ (fetchAddr s k).toNat) : sparseRead (placedMem s inst) a = sparseRead s.mem a := by
  rw [sparseRead_placedMem hm, if_neg (ha 3 (by decide)), if_neg (ha 2 (by decide)), if_neg (ha 1 (by decide)),
    if_neg (ha 0 (by decide))]

/-- The four bytes at the pc are those of the placed word. -/
theorem fetchBytes_placeWord (hin : FetchInWindow s) (hm : Memory.wf s.mem = true) (inst : InstWord) :
    fetchBytes (placeWord s inst) = wordBytes inst := by
  rw [placeWord_eq_placedMem hin]
  exact List.map_congr_left fun k hk => sparseRead_placedMem_fetchAddr hm inst (List.mem_range.mp hk)

/-- The instruction of a table word is what the decoder reads from its four bytes. -/
theorem decodeBytes_of_decodeTableWord {n w : Nat} {i : Instr} (h : decodeTableWord n w = some i) :
    ∃ rest, decodeBytes (wordBytes (tableWord n w)) = .ok (i, rest) := by
  unfold decodeTableWord at h
  split at h
  next j rest hd =>
    cases h
    exact ⟨rest, hd⟩
  next => cases h

end Placing

/-- Settles O22: the placed bytes are what the next fetch decodes, and the rest is the frame of the four byte writes. -/
theorem withFetchWordRunsThatInstruction : Obligations.WithFetchWordRunsThatInstruction := by
  intro s n w i hin hm h
  obtain ⟨rest, hd⟩ := decodeBytes_of_decodeTableWord h
  have hbytes := fetchBytes_placeWord hin hm (tableWord n w)
  unfold State.withFetchWord
  rw [placeWord_eq_placedMem hin] at hbytes ⊢
  exact ⟨step_of_decodeBytes rfl hin (hbytes ▸ hd), fun a ha => sparseRead_placedMem_of_ne hm _ ha,
    fun _ => rfl, rfl, fun _ => rfl, rfl, rfl⟩

end Sys2Proof.Machine
end

section
/-! PROOFS. What an instruction leaves unchanged (O49): only a store writes the Memory, and no store has a destination. -/

namespace Sys2Proof.Machine

section MemoryFrame

variable {s t : State} {i : Instr}

/-- A branch writes no byte, taken or not (R131). -/
theorem branchIf_mem {b : Bool} {imm : BitVec 13} (h : branchIf s b imm = .next t) : t.mem = s.mem := by
  unfold branchIf at h
  split at h
  · split at h
    all_goals
      cases h
      rfl
  · cases h
    rfl

theorem commitReg_mem {rd : RegIdx} {v : Word} (h : commitReg s rd v = .next t) : t.mem = s.mem := by
  cases h
  simp

/-- A load writes no byte, whether it completes or faults (R142). -/
theorem commitLoad_mem {rd : RegIdx} {x : Except Exn Word} (h : commitLoad s rd x = .next t) : t.mem = s.mem := by
  cases x with
  | ok v => exact commitReg_mem h
  | error e =>
    cases h
    rfl

/-- Only the four stores write the Memory (R118). -/
theorem exec_mem_of_not_store (h : exec i s = .next t) (hi : isStore i = false) : t.mem = s.mem := by
  cases i with
  | beq | bne | blt | bge | bltu | bgeu => exact branchIf_mem h
  | lb | lh | lw | ld | lbu | lhu | lwu => exact commitLoad_mem h
  | sb | sh | sw | sd => cases hi
  | add | sub | sll | slt | sltu | xor | srl | sra | or | and | addw | subw | sllw | srlw | sraw
  | addi | slti | sltiu | xori | ori | andi | slli | srli | srai | addiw | slliw | srliw | sraiw => exact commitReg_mem h

/-- No instruction writes both the Memory and a register (R118). -/
theorem destination_of_isStore (hi : isStore i = true) : destination i = none := by
  cases i with
  | sb | sh | sw | sd => rfl
  | _ => cases hi

end MemoryFrame

/-- Settles O49, from the register frame and the Memory frame of every instruction, and the shapes of its effect. -/
theorem instructionsWriteOneRegisterOrStore : Obligations.InstructionsWriteOneRegisterOrStore := by
  intro i s t h
  obtain ⟨hcsr, hparams⟩ := (effect_of_exec h).csr_params
  refine ⟨fun r hr => exec_reg_of_ne_destination h hr, fun hi a => ?_, fun a => ?_, hparams, destination_of_isStore⟩
  · rw [State.byteAt, exec_mem_of_not_store h hi, State.byteAt]
  · rw [State.csrEntry, hcsr, State.csrEntry]

end Sys2Proof.Machine
end

section
/-! PROOFS. The six branches (O23 to O25). Each is `branchIf` under a comparison of two registers: the three outcomes of
`branchIf` are said once, and each branch adds what its comparison means. -/

namespace Sys2Proof.Machine

section Branches

variable {s : State} {i : Instr} {imm : BitVec 13} {b : Bool}

/-! ### The two addresses of a branch, as numbers -/

/-- A word plus a signed one, modulo 2^64. -/
theorem toNat_add_toInt (a d : Word) : ((a + d).toNat : Int) = (a.toNat + d.toInt) % 2 ^ 64 := by
  rw [BitVec.toNat_add, BitVec.toInt_eq_toNat_cond]
  split <;> omega

/-- `sext_13` keeps the signed value (R84). -/
@[simp] theorem sextImm13_toInt (imm : BitVec 13) : (sextImm13 imm).toInt = imm.toInt :=
  BitVec.toInt_signExtend_of_le (by decide)

/-- The target is the word with the number pc + imm modulo 2^64 (R131). -/
theorem eq_branchTarget {target : Word} (h : (target.toNat : Int) = (s.pc.toNat + imm.toInt) % 2 ^ 64) :
    target = branchTarget s imm := by
  have htarget := toNat_add_toInt s.pc (sextImm13 imm)
  rw [sextImm13_toInt, ← h] at htarget
  exact BitVec.eq_of_toNat_eq (Int.ofNat_inj.mp htarget.symm)

/-- The next pc is the word with the number pc + 4 modulo 2^64 (R113). -/
theorem eq_pcPlus4 {npc : Word} (h : npc.toNat = (s.pc.toNat + 4) % 2 ^ 64) : npc = s.pcPlus4 :=
  BitVec.eq_of_toNat_eq (by simp [h, State.pcPlus4])

/-! ### The three outcomes of a branch (R131) -/

theorem branchIf_aligned (h : (branchTarget s imm).toNat % 4 = 0) :
    branchIf s true imm = .next (s.setPc (branchTarget s imm)) := by
  simp [branchIf, misaligned_eq_false_iff.mpr h]

theorem branchIf_misaligned (h : (branchTarget s imm).toNat % 4 ≠ 0) :
    branchIf s true imm = .next (s.halt (.trap (.instructionAddressMisaligned (branchTarget s imm)))) := by
  have hm : misaligned (branchTarget s imm) = true := by
    rwa [← Bool.not_eq_false, misaligned_eq_false_iff]
  simp [branchIf, hm]

@[simp] theorem branchIf_false : branchIf s false imm = .next (s.setPc s.pcPlus4) := rfl

/-- An instruction whose meaning is `branchIf` under a condition meets the branch law for that condition. -/
theorem branchLaw_of_branchIf {cond : Prop} (hi : exec i s = branchIf s b imm) (hb : b = true ↔ cond) :
    BranchLaw s i imm cond where
  taken := by
    intro target htarget hcond haligned
    obtain rfl := eq_branchTarget htarget
    rw [hb.mpr hcond, branchIf_aligned haligned] at hi
    exact ⟨_, hi, setPc_jumpsOnly s _⟩
  misaligned := by
    intro target htarget hcond hmis
    obtain rfl := eq_branchTarget htarget
    rw [hb.mpr hcond, branchIf_misaligned hmis] at hi
    exact ⟨_, hi, halt_haltsOnly s _⟩
  notTaken := by
    intro npc hnpc hcond
    obtain rfl := eq_pcPlus4 hnpc
    rw [Bool.eq_false_iff.mpr (mt hb.mp hcond), branchIf_false] at hi
    exact ⟨_, hi, setPc_jumpsOnly s _⟩

/-! ### The comparisons of the branches (R132 to R137) -/

variable {x y : Word}

theorem cmpEq_iff : cmpEq x y = true ↔ x = y := beq_iff_eq

theorem cmpLtS_iff : cmpLtS x y = true ↔ x.toInt < y.toInt := BitVec.slt_iff_toInt_lt

theorem cmpLtU_iff : cmpLtU x y = true ↔ x.toNat < y.toNat := BitVec.ult_iff_toNat_lt

/-- The turned comparison of bne, bge and bgeu has the negated meaning. -/
theorem not_eq_true_iff_not {p : Prop} (h : b = true ↔ p) : (!b) = true ↔ ¬ p := by
  rw [Bool.not_eq_true', Bool.eq_false_iff, Ne, h]

end Branches

/-- Settles O23: beq and bne are `branchIf` on equal and on unequal registers, and their words are those of `encode`. -/
theorem branchesOnEqualityCompleteOrTrap : Obligations.BranchesOnEqualityCompleteOrTrap := fun _ rs1 rs2 imm =>
  ⟨decodeWord_encode (i := .beq rs1 rs2 imm), branchLaw_of_branchIf rfl cmpEq_iff,
    decodeWord_encode (i := .bne rs1 rs2 imm), branchLaw_of_branchIf rfl (not_eq_true_iff_not cmpEq_iff)⟩

/-- Settles O24: blt and bge are `branchIf` on the signed comparison and its negation. -/
theorem signedBranchesCompleteOrTrap : Obligations.SignedBranchesCompleteOrTrap := fun _ rs1 rs2 imm =>
  ⟨decodeWord_encode (i := .blt rs1 rs2 imm), branchLaw_of_branchIf rfl cmpLtS_iff,
    decodeWord_encode (i := .bge rs1 rs2 imm), branchLaw_of_branchIf rfl ((not_eq_true_iff_not cmpLtS_iff).trans not_lt)⟩

/-- Settles O25: bltu and bgeu are `branchIf` on the unsigned comparison and its negation. -/
theorem unsignedBranchesCompleteOrTrap : Obligations.UnsignedBranchesCompleteOrTrap := fun _ rs1 rs2 imm =>
  ⟨decodeWord_encode (i := .bltu rs1 rs2 imm), branchLaw_of_branchIf rfl cmpLtU_iff,
    decodeWord_encode (i := .bgeu rs1 rs2 imm), branchLaw_of_branchIf rfl ((not_eq_true_iff_not cmpLtU_iff).trans not_lt)⟩

end Sys2Proof.Machine
end

section
/-! PROOFS. The effective address (O26) and the seven loads (O27, O28). The number that `MemRead` gives is that of the
little-endian bytes; a load under either extension meets its law at every width, and each instruction is one of them. -/

namespace Sys2Proof.Machine

/-! ### The effective address (R141, R152) -/

/-- `sext_12` keeps the signed value (R84). -/
@[simp] theorem sextImm12_toInt (imm : BitVec 12) : (sextImm12 imm).toInt = imm.toInt :=
  BitVec.toInt_signExtend_of_le (by decide)

/-- Settles O26: the sum of two words is the number sum modulo 2^64, and the sign extension keeps the offset's value. -/
theorem effectiveAddressIsBasePlusOffset : Obligations.EffectiveAddressIsBasePlusOffset := fun s rs1 imm => by
  rw [effAddr, toNat_add_toInt, sextImm12_toInt]

/-! ### The number of the bytes that a load reads (R52) -/

/-- The number of a byte sequence is that of its base 256 digits, the least significant first. -/
theorem leNat_eq_ofDigits (bs : List Byte) : leNat bs = Nat.ofDigits 256 (bs.map BitVec.toNat) := by
  induction bs with
  | nil => rfl
  | cons b rest ih => simp [leNat, Nat.ofDigits_cons, ih]

/-- A byte added at the end of a sequence is its most significant digit. -/
theorem leNat_concat (bs : List Byte) (b : Byte) : leNat (bs ++ [b]) = leNat bs + 256 ^ bs.length * b.toNat := by
  simp [leNat_eq_ofDigits, Nat.ofDigits_append]

theorem leNat_lt (bs : List Byte) : leNat bs < 256 ^ bs.length := by
  rw [leNat_eq_ofDigits, ← List.length_map (f := BitVec.toNat)]
  refine Nat.ofDigits_lt_base_pow_length (by decide) fun d hd => ?_
  obtain ⟨b, -, rfl⟩ := List.mem_map.mp hd
  exact b.isLt

section Loads

variable {s : State} {i : Instr} {rd rs1 : RegIdx} {imm : BitVec 12}

@[simp] theorem bytesFrom_length (a n : Nat) : (bytesFrom s a n).length = n := by simp [bytesFrom]

theorem bytesFrom_succ (a n : Nat) : bytesFrom s a (n + 1) = bytesFrom s a n ++ [s.byteAt (a + n)] := by
  simp [bytesFrom, List.range_succ]

theorem leNat_bytesFrom_lt (a n : Nat) : leNat (bytesFrom s a n) < 2 ^ (8 * n) := by
  simpa [Nat.pow_mul] using leNat_lt (bytesFrom s a n)

/-- A byte moved up to be byte k of a 64-bit value keeps all its bits. -/
theorem byte_shiftLeft_toNat (b : Byte) {k : Nat} (hk : k < 8) :
    (b.setWidth 64 <<< (8 * k)).toNat = b.toNat <<< (8 * k) := by
  have hfits : b.toNat * 2 ^ (8 * k) < 2 ^ 8 * 2 ^ 56 :=
    Nat.mul_lt_mul_of_lt_of_le b.isLt (Nat.pow_le_pow_right (by decide) (by omega)) (by decide)
  rw [BitVec.toNat_shiftLeft, BitVec.toNat_setWidth_of_le (by decide), Nat.mod_eq_of_lt]
  rwa [Nat.shiftLeft_eq]

/-- `MemRead(a, n)` is the little-endian number of the n bytes from a (R52): each byte lies above the bits read before it. -/
theorem memRead_toNat (a : Nat) {n : Nat} (hn : n ≤ 8) : (memRead s.mem a n).toNat = leNat (bytesFrom s a n) := by
  induction n with
  | zero => rfl
  | succ k ih =>
    calc (memRead s.mem a (k + 1)).toNat
        = leNat (bytesFrom s a k) ||| (s.byteAt (a + k)).toNat <<< (8 * k) := by
          rw [memRead, BitVec.toNat_or, ih (by omega), byte_shiftLeft_toNat _ hn, State.byteAt]
      _ = leNat (bytesFrom s a k) + 256 ^ k * (s.byteAt (a + k)).toNat := by
          rw [Nat.or_comm, ← Nat.shiftLeft_add_eq_or_of_lt (leNat_bytesFrom_lt a k), Nat.shiftLeft_eq, Nat.pow_mul,
            Nat.add_comm, Nat.mul_comm]
      _ = leNat (bytesFrom s a (k + 1)) := by rw [bytesFrom_succ, leNat_concat, bytesFrom_length]

theorem widthBytes_le (n : Width) : widthBytes n ≤ 8 := by cases n <;> decide

/-- The low 8n bits of `MemRead(a, n)`, sign-extended, are the two's-complement value of the n bytes from a (R57). -/
theorem signExtend_memRead_toInt (a : Nat) (n : Width) :
    (((memRead s.mem a (widthBytes n)).extractLsb' 0 (8 * widthBytes n)).signExtend 64).toInt =
      Int.bmod (leNat (bytesFrom s a (widthBytes n))) (2 ^ (8 * widthBytes n)) := by
  rw [BitVec.toInt_signExtend_of_le (widthBits_le n), BitVec.toInt_eq_toNat_bmod, BitVec.extractLsb'_toNat,
    Nat.shiftRight_zero, memRead_toNat a (widthBytes_le n), Int.natCast_mod, Int.emod_bmod]

/-! ### The two outcomes of a load (R142) -/

/-- An instruction that takes an exception halts with it and changes nothing else. -/
theorem haltsWith_of_takeException {e : Exn} (h : exec i s = takeException s e) : HaltsWith s i (.trap e) :=
  ⟨_, h, halt_haltsOnly s _⟩

/-- An instruction whose meaning is `Load(n, signed = true)` meets the law of a signed load of that width. -/
theorem signedLoadLaw_of_loadS {n : Width} (hi : exec i s = loadS s n rd rs1 imm) :
    SignedLoadLaw s i rd (effAddr s rs1 imm) (widthBytes n) where
  loads := by
    intro hin
    rw [loadS, loadSigned, if_pos hin] at hi
    exact ⟨_, signExtend_memRead_toInt _ n, writesReg_of_commitReg hi⟩
  faults := by
    intro hout
    rw [loadS, loadSigned, if_neg (Bool.eq_false_iff.mp hout)] at hi
    exact haltsWith_of_takeException hi

/-- An instruction whose meaning is `Load(n, signed = false)` meets the law of an unsigned load of that width. -/
theorem unsignedLoadLaw_of_loadU {n : Width} (hi : exec i s = loadU s n rd rs1 imm) :
    UnsignedLoadLaw s i rd (effAddr s rs1 imm) (widthBytes n) where
  loads := by
    intro hin
    rw [loadU, loadUnsigned, if_pos hin] at hi
    exact ⟨_, memRead_toNat _ (widthBytes_le n), writesReg_of_commitReg hi⟩
  faults := by
    intro hout
    rw [loadU, loadUnsigned, if_neg (Bool.eq_false_iff.mp hout)] at hi
    exact haltsWith_of_takeException hi

end Loads

/-- Settles O27: lb, lh, lw and ld are the signed load of 1, 2, 4 and 8 bytes, and their words are those of `encode`. -/
theorem signedLoadsCompleteOrFault : Obligations.SignedLoadsCompleteOrFault := fun _ rd rs1 imm =>
  ⟨decodeWord_encode (i := .lb rd rs1 imm) rfl, signedLoadLaw_of_loadS (n := .byte) rfl,
    decodeWord_encode (i := .lh rd rs1 imm) rfl, signedLoadLaw_of_loadS (n := .half) rfl,
    decodeWord_encode (i := .lw rd rs1 imm) rfl, signedLoadLaw_of_loadS (n := .word) rfl,
    decodeWord_encode (i := .ld rd rs1 imm) rfl, signedLoadLaw_of_loadS (n := .double) rfl⟩

/-- Settles O28: lbu, lhu and lwu are the unsigned load of 1, 2 and 4 bytes, and their words are those of `encode`. -/
theorem unsignedLoadsCompleteOrFault : Obligations.UnsignedLoadsCompleteOrFault := fun _ rd rs1 imm =>
  ⟨decodeWord_encode (i := .lbu rd rs1 imm) rfl, unsignedLoadLaw_of_loadU (n := .byte) rfl,
    decodeWord_encode (i := .lhu rd rs1 imm) rfl, unsignedLoadLaw_of_loadU (n := .half) rfl,
    decodeWord_encode (i := .lwu rd rs1 imm) rfl, unsignedLoadLaw_of_loadU (n := .word) rfl⟩

end Sys2Proof.Machine
end

section
/-! PROOFS. The four stores (O29). What a store writes is read off `MemWrite` byte by byte; a store meets its law at every
width, and each instruction is one of them. -/

namespace Sys2Proof.Machine

section Stores

variable {s : State} {i : Instr} {rs1 rs2 : RegIdx} {imm : BitVec 12}

/-- Byte k of a word, as a number. -/
theorem extractLsb'_byte_toNat (v : Word) (k : Nat) : (v.extractLsb' (8 * k) 8).toNat = v.toNat / 256 ^ k % 256 := by
  rw [BitVec.extractLsb'_toNat, Nat.shiftRight_eq_div_pow, Nat.pow_mul]

/-- What a completed store changes, through the reads of the state (R59, R152). -/
theorem memWrite_storesOnly (hm : Memory.wf s.mem = true) (a n : Nat) (v : Word) :
    StoresOnly s (State.setPc { s with mem := memWrite s.mem a n v } s.pcPlus4) a n v where
  stored := by
    intro k hk
    rw [setPc_byteAt, withMem_byteAt, sparseRead_memWrite hm, if_pos ⟨by omega, by omega⟩, Nat.add_sub_cancel_left,
      extractLsb'_byte_toNat]
  otherBytes := by
    intro b hb
    rw [setPc_byteAt, withMem_byteAt, sparseRead_memWrite hm, if_neg (by omega), State.byteAt]
  regs := fun _ => rfl
  pc := by simp [State.pcPlus4]
  csr := fun _ => rfl
  status := rfl
  params := rfl

/-- An instruction whose meaning is `StoreN(n)` meets the law of a store of that width (R152). -/
theorem storeLaw_of_storeN {n : Width} (hm : Memory.wf s.mem = true) (hi : exec i s = storeN s n rs1 rs2 imm) :
    StoreLaw s i (effAddr s rs1 imm) (widthBytes n) (s.reg rs2) where
  stores := by
    intro hin
    rw [storeN_eq, if_pos hin] at hi
    exact ⟨_, hi, memWrite_storesOnly hm _ _ _⟩
  faults := by
    intro hout
    rw [storeN_eq, if_neg (Bool.eq_false_iff.mp hout)] at hi
    exact haltsWith_of_takeException hi

end Stores

/-- Settles O29: sb, sh, sw and sd are the store of 1, 2, 4 and 8 bytes, and their words are those of `encode`. -/
theorem storesCompleteOrFault : Obligations.StoresCompleteOrFault := fun _ rs1 rs2 imm hm =>
  ⟨decodeWord_encode (i := .sb rs1 rs2 imm) rfl, storeLaw_of_storeN (n := .byte) hm rfl,
    decodeWord_encode (i := .sh rs1 rs2 imm) rfl, storeLaw_of_storeN (n := .half) hm rfl,
    decodeWord_encode (i := .sw rs1 rs2 imm) rfl, storeLaw_of_storeN (n := .word) hm rfl,
    decodeWord_encode (i := .sd rs1 rs2 imm) rfl, storeLaw_of_storeN (n := .double) hm rfl⟩

end Sys2Proof.Machine
end

section
/-! PROOFS. The ten R-type instructions on 64-bit words (O34 to O37). Each is the commit of one word function of the two
registers, and its result is that function's value as a number or bit by bit. -/

namespace Sys2Proof.Machine

section Results

/-- The difference of two words, as a number modulo 2^64. -/
theorem toNat_sub_toNat (a b : Word) : ((a - b).toNat : Int) = (a.toNat - b.toNat : Int) % 2 ^ 64 := by
  rw [BitVec.toNat_sub]
  omega

variable {w m : Nat} (a : BitVec w) (n : BitVec m)

/-- A left shift multiplies by 2^n, modulo 2^w. -/
theorem shiftLeft_amount_toNat : (a <<< n).toNat = a.toNat * 2 ^ n.toNat % 2 ^ w := by
  rw [BitVec.shiftLeft_eq', BitVec.toNat_shiftLeft, Nat.shiftLeft_eq]

/-- A logical right shift divides the unsigned value by 2^n, rounding down. -/
theorem ushiftRight_amount_toNat : (a >>> n).toNat = a.toNat / 2 ^ n.toNat := by
  rw [BitVec.ushiftRight_eq', BitVec.toNat_ushiftRight, Nat.shiftRight_eq_div_pow]

/-- An arithmetic right shift divides the signed value by 2^n, rounding down. -/
theorem sshiftRight_amount_toInt : (a.sshiftRight' n).toInt = a.toInt / 2 ^ n.toNat := by
  rw [BitVec.sshiftRight', BitVec.toInt_sshiftRight, Int.shiftRight_eq_div_pow, Nat.cast_pow, Nat.cast_ofNat]

/-- The number of a comparison's result, by what the comparison means (R11). -/
theorem bool2u64_toNat {c : Bool} {p : Prop} [Decidable p] (h : c = true ↔ p) :
    (bool2u64 c).toNat = if p then 1 else 0 := by
  simp only [bool2u64, h]
  split <;> rfl

end Results

/-- Settles O34: add and sub commit the sum and the difference of words, and their words are those of `encode`. -/
theorem addAndSubWrapModulo2To64 : Obligations.AddAndSubWrapModulo2To64 := fun _ rd rs1 rs2 =>
  ⟨decodeWord_encode (i := .add rd rs1 rs2) rfl, ⟨_, BitVec.toNat_add _ _, writesReg_of_commitReg rfl⟩,
    decodeWord_encode (i := .sub rd rs1 rs2) rfl, ⟨_, toNat_sub_toNat _ _, writesReg_of_commitReg rfl⟩⟩

/-- Settles O35: sll, srl and sra commit the shift by the low six bits of x[rs2], whose number is that modulo 64. -/
theorem registerShiftsUseTheLowSixBits : Obligations.RegisterShiftsUseTheLowSixBits := fun s rd rs1 rs2 => by
  rw [← regShamt_toNat (s.reg rs2)]
  exact
    ⟨decodeWord_encode (i := .sll rd rs1 rs2) rfl, ⟨_, shiftLeft_amount_toNat _ _, writesReg_of_commitReg rfl⟩,
      decodeWord_encode (i := .srl rd rs1 rs2) rfl, ⟨_, ushiftRight_amount_toNat _ _, writesReg_of_commitReg rfl⟩,
      decodeWord_encode (i := .sra rd rs1 rs2) rfl, ⟨_, sshiftRight_amount_toInt _ _, writesReg_of_commitReg rfl⟩⟩

/-- Settles O36: slt and sltu commit the number of the signed and of the unsigned comparison. -/
theorem setLessThanGivesOneOrZero : Obligations.SetLessThanGivesOneOrZero := fun _ rd rs1 rs2 =>
  ⟨decodeWord_encode (i := .slt rd rs1 rs2) rfl, ⟨_, bool2u64_toNat cmpLtS_iff, writesReg_of_commitReg rfl⟩,
    decodeWord_encode (i := .sltu rd rs1 rs2) rfl, ⟨_, bool2u64_toNat cmpLtU_iff, writesReg_of_commitReg rfl⟩⟩

/-- Settles O37: xor, or and and commit the bitwise function of the two registers. -/
theorem registerLogicIsBitwise : Obligations.RegisterLogicIsBitwise := fun _ rd rs1 rs2 =>
  ⟨decodeWord_encode (i := .xor rd rs1 rs2) rfl, ⟨_, fun _ => BitVec.getLsbD_xor, writesReg_of_commitReg rfl⟩,
    decodeWord_encode (i := .or rd rs1 rs2) rfl, ⟨_, fun _ => BitVec.getLsbD_or, writesReg_of_commitReg rfl⟩,
    decodeWord_encode (i := .and rd rs1 rs2) rfl, ⟨_, fun _ => BitVec.getLsbD_and, writesReg_of_commitReg rfl⟩⟩

end Sys2Proof.Machine
end

section
/-! PROOFS. The R-type word forms (O38, O39), and what all nine word forms share (O41, O56): each commits the sign extension of
a 32-bit result that depends only on the low words of its operands. -/

namespace Sys2Proof.Machine

/-! ### 32-bit results as numbers (R182 to R186) -/

section WordResults

variable {m : Nat} (v : Word) (n : BitVec m)

/-- The signed low word is the balanced residue modulo 2^32. -/
theorem low32_toInt : (low32 v).toInt = Int.bmod v.toNat (2 ^ 32) := by
  rw [BitVec.toInt_eq_toNat_bmod, low32_toNat, Int.natCast_mod, Int.emod_bmod]

/-- The signed low word of a 64-bit result known modulo 2^64. -/
theorem low32_toInt_of_emod {v : Word} {x : Int} (h : (v.toNat : Int) = x % 2 ^ 64) :
    (low32 v).toInt = Int.bmod x (2 ^ 32) := by
  rw [low32_toInt, h, ← Int.emod_bmod, Int.emod_emod_of_dvd x (by decide), Int.emod_bmod]

/-- Bits of the operand above bit 31 are shifted out of the low word. -/
theorem low32_shiftLeft_toInt : (low32 v <<< n).toInt = Int.bmod (v.toNat * 2 ^ n.toNat) (2 ^ 32) := by
  rw [BitVec.toInt_eq_toNat_bmod, shiftLeft_amount_toNat, low32_toNat, Nat.mod_mul_mod, Int.natCast_mod, Int.emod_bmod]
  norm_cast

theorem low32_ushiftRight_toInt :
    (low32 v >>> n).toInt = Int.bmod (v.toNat % 2 ^ 32 / 2 ^ n.toNat) (2 ^ 32) := by
  rw [BitVec.toInt_eq_toNat_bmod, ushiftRight_amount_toNat, low32_toNat]
  norm_cast

theorem low32_sshiftRight_toInt :
    ((low32 v).sshiftRight' n).toInt = Int.bmod v.toNat (2 ^ 32) / 2 ^ n.toNat := by
  rw [sshiftRight_amount_toInt, low32_toInt]

end WordResults

section WordForms

variable {i : Instr} {rd rs1 rs2 : RegIdx} {s s' t : State}

/-- An instruction that commits the sign extension of a 32-bit result writes that result's signed value (R181, R211). -/
theorem writesReg_of_commit_sext32 {r : BitVec 32} {z : Int} (hi : exec i s = commitReg s rd (sext32 r)) (hr : r.toInt = z) :
    ∃ v : Word, v.toInt = z ∧ WritesReg s i rd v :=
  ⟨sext32 r, (sext32_toInt r).trans hr, writesReg_of_commitReg hi⟩

/-- A register word shift by less than 32, whichever it is: rd takes the 32-bit shift of the low word (R184 to R186). -/
theorem wordShift_below_law {op : WordShiftOp} {g : BitVec 32 → BitVec 6 → BitVec 32}
    (hi : exec i s = opReg32W s (wordShift op g) rd rs1 rs2) (h32 : (regShamt (s.reg rs2)).toNat < 32) {z : Int}
    (hg : (g (low32 (s.reg rs1)) (regShamt (s.reg rs2))).toInt = z) : ∃ v : Word, v.toInt = z ∧ WritesReg s i rd v := by
  rw [opReg32W, wordShift_below (regShamt_toNat _ ▸ h32)] at hi
  exact writesReg_of_commit_sext32 hi hg

/-! ### What the nine word forms share (R181, R211, decision D31) -/

/-- The registers of the two states agree in their low 32 bits. -/
def SameLowWords (s s' : State) : Prop := ∀ r, (s'.reg r).toNat % 2 ^ 32 = (s.reg r).toNat % 2 ^ 32

theorem SameLowWords.low32_reg (h : SameLowWords s s') (r : RegIdx) : low32 (s'.reg r) = low32 (s.reg r) :=
  low32_congr (h r)

theorem SameLowWords.regShamt_reg (h : SameLowWords s s') (r : RegIdx) : regShamt (s'.reg r) = regShamt (s.reg r) :=
  regShamt_congr (h r)

/-- Every word form commits the sign extension of a 32-bit result that is a function of the low words of the registers. -/
theorem exec_wordForm (hi : isWordForm i = true) (hd : destination i = some rd) :
    ∃ f : State → BitVec 32, (∀ s, exec i s = commitReg s rd (sext32 (f s))) ∧
      ∀ s s', SameLowWords s s' → f s' = f s := by
  cases i with
  | addw | subw | addiw =>
    cases hd
    exact ⟨_, fun _ => rfl, fun _ _ h => by simp only [low32_add, low32_sub, h.low32_reg]⟩
  | sllw _ rs1 rs2 | srlw _ rs1 rs2 | sraw _ rs1 rs2 =>
    cases hd
    exact ⟨_, fun _ => rfl, fun _ _ h => wordShift_congr (h.low32_reg rs1) (h.regShamt_reg rs2)⟩
  | slliw | srliw | sraiw =>
    cases hd
    exact ⟨_, fun _ => rfl, fun _ _ h => by simp only [h.low32_reg]⟩
  | _ => cases hi

/-- What the destination reads after the commit of a result (R21, R118). -/
theorem commitReg_reg_self {v : Word} (h : commitReg s rd v = .next t) : t.reg rd = if rd = 0#5 then 0#64 else v := by
  cases h
  rw [setPc_reg, setReg_reg]
  by_cases hrd : rd = 0#5
  · subst hrd
    rfl
  · simp [hrd]

/-- A sign-extended 32-bit value lies in the signed 32-bit range (R188, R216). -/
theorem sext32_toInt_bounds (r : BitVec 32) : -(2 ^ 31) ≤ (sext32 r).toInt ∧ (sext32 r).toInt < 2 ^ 31 := by
  rw [sext32_toInt]
  exact ⟨BitVec.le_toInt r, BitVec.toInt_lt⟩

end WordForms

/-- Settles O38: addw and subw commit the low word of the 64-bit sum and difference, and their words are those of `encode`. -/
theorem addwAndSubwWrapModulo2To32 : Obligations.AddwAndSubwWrapModulo2To32 := fun _ rd rs1 rs2 =>
  ⟨decodeWord_encode (i := .addw rd rs1 rs2) rfl,
    writesReg_of_commit_sext32 rfl (low32_toInt_of_emod (congrArg Nat.cast (BitVec.toNat_add _ _))),
    decodeWord_encode (i := .subw rd rs1 rs2) rfl,
    writesReg_of_commit_sext32 rfl (low32_toInt_of_emod (toNat_sub_toNat _ _))⟩

/-- Settles O39: each of the three is a register word shift by less than 32, with the value of its 32-bit shift. -/
theorem wordShiftsBelow32 : Obligations.WordShiftsBelow32 := fun s rd rs1 rs2 => by
  rw [← regShamt_toNat (s.reg rs2)]
  exact
    ⟨decodeWord_encode (i := .sllw rd rs1 rs2) rfl,
      fun h32 => wordShift_below_law rfl h32 (low32_shiftLeft_toInt _ _),
      decodeWord_encode (i := .srlw rd rs1 rs2) rfl,
      fun h32 => wordShift_below_law rfl h32 (low32_ushiftRight_toInt _ _),
      decodeWord_encode (i := .sraw rd rs1 rs2) rfl,
      fun h32 => wordShift_below_law rfl h32 (low32_sshiftRight_toInt _ _)⟩

/-- Settles O41: the destination reads the sign extension of a 32-bit result, the free value of R187 included. -/
theorem wordResultsAreSignExtended : Obligations.WordResultsAreSignExtended := by
  intro i rd s t hi hd hrd h
  obtain ⟨f, hexec, -⟩ := exec_wordForm hi hd
  rw [commitReg_reg_self ((hexec s).symm.trans h), if_neg hrd]
  exact sext32_toInt_bounds (f s)

/-- Settles O56: both states commit the same 32-bit result, which depends on the low words only. -/
theorem wordFormsIgnoreTheUpperHalf : Obligations.WordFormsIgnoreTheUpperHalf := by
  intro i rd s s' hi hd hlow
  obtain ⟨f, hexec, hcongr⟩ := exec_wordForm hi hd
  refine ⟨_, _, hexec s, hexec s', ?_⟩
  rw [commitReg_reg_self rfl, commitReg_reg_self rfl, hcongr s s' hlow]

end Sys2Proof.Machine
end

section
/-! PROOFS. The nine I-type instructions on 64-bit words (O42 to O45). Each is the commit of one word function of x[rs1] and the
immediate, so what is left is the sign-extended immediate as a number and bit by bit. -/

namespace Sys2Proof.Machine

/-! ### The sign-extended immediate (R82, R84) -/

section Immediate

variable (imm : BitVec 12)

/-- The sign-extended immediate read as unsigned (R194). -/
theorem sextImm12_toNat : ((sextImm12 imm).toNat : Int) = imm.toInt % 2 ^ 64 := by
  simpa using toNat_add_toInt 0#64 (sextImm12 imm)

/-- Bits 0 to 10 of the sign extension are the immediate's own, and every bit from 11 on is its bit 11. -/
theorem sextImm12_getLsbD {k : Nat} (hk : k < 64) : (sextImm12 imm).getLsbD k = imm.getLsbD (min k 11) := by
  rw [sextImm12, BitVec.getLsbD_signExtend, BitVec.msb_eq_getLsbD_last]
  by_cases h : k < 12
  · simp [hk, h, Nat.min_eq_left (Nat.le_of_lt_succ h)]
  · simp [hk, h, Nat.min_eq_right (show 11 ≤ k by omega)]

variable {a : Word}

/-- The signed comparison with the immediate (R193). -/
theorem cmpLtS_sextImm12_iff : cmpLtS a (sextImm12 imm) = true ↔ a.toInt < imm.toInt := by
  rw [cmpLtS_iff, sextImm12_toInt]

/-- The unsigned comparison with the immediate (R194). -/
theorem cmpLtU_sextImm12_iff : cmpLtU a (sextImm12 imm) = true ↔ (a.toNat : Int) < imm.toInt % 2 ^ 64 := by
  rw [cmpLtU_iff, ← sextImm12_toNat, Nat.cast_lt]

end Immediate

/-- Settles O42: the sum that addi commits is the base plus the signed immediate, as that of an effective address (O26). -/
theorem addiWrapsModulo2To64 : Obligations.AddiWrapsModulo2To64 := fun s rd rs1 imm =>
  ⟨decodeWord_encode (i := .addi rd rs1 imm) rfl,
    ⟨effAddr s rs1 imm, effectiveAddressIsBasePlusOffset s rs1 imm, writesReg_of_commitReg rfl⟩⟩

/-- Settles O43: slti and sltiu commit the number of the signed and of the unsigned comparison with the immediate. -/
theorem setLessThanImmediateGivesOneOrZero : Obligations.SetLessThanImmediateGivesOneOrZero := fun _ rd rs1 imm =>
  ⟨decodeWord_encode (i := .slti rd rs1 imm) rfl,
    ⟨_, bool2u64_toNat (cmpLtS_sextImm12_iff imm), writesReg_of_commitReg rfl⟩,
    decodeWord_encode (i := .sltiu rd rs1 imm) rfl,
    ⟨_, bool2u64_toNat (cmpLtU_sextImm12_iff imm), writesReg_of_commitReg rfl⟩⟩

/-- Settles O44: xori, ori and andi commit the bitwise function of x[rs1] and the sign-extended immediate. -/
theorem immediateLogicIsBitwise : Obligations.ImmediateLogicIsBitwise := fun _ rd rs1 imm =>
  ⟨decodeWord_encode (i := .xori rd rs1 imm) rfl,
    ⟨_, fun _ hk => sextImm12_getLsbD imm hk ▸ BitVec.getLsbD_xor, writesReg_of_commitReg rfl⟩,
    decodeWord_encode (i := .ori rd rs1 imm) rfl,
    ⟨_, fun _ hk => sextImm12_getLsbD imm hk ▸ BitVec.getLsbD_or, writesReg_of_commitReg rfl⟩,
    decodeWord_encode (i := .andi rd rs1 imm) rfl,
    ⟨_, fun _ hk => sextImm12_getLsbD imm hk ▸ BitVec.getLsbD_and, writesReg_of_commitReg rfl⟩⟩

/-- Settles O45: slli, srli and srai commit the shift by the six-bit amount, and their words are those of `encode`. -/
theorem immediateShiftsByZeroTo63 : Obligations.ImmediateShiftsByZeroTo63 := fun _ rd rs1 shamt =>
  ⟨decodeWord_encode (i := .slli rd rs1 shamt) rfl, ⟨_, shiftLeft_amount_toNat _ _, writesReg_of_commitReg rfl⟩,
    decodeWord_encode (i := .srli rd rs1 shamt) rfl, ⟨_, ushiftRight_amount_toNat _ _, writesReg_of_commitReg rfl⟩,
    decodeWord_encode (i := .srai rd rs1 shamt) rfl, ⟨_, sshiftRight_amount_toInt _ _, writesReg_of_commitReg rfl⟩⟩

end Sys2Proof.Machine
end

section
/-! PROOFS. The I-type word forms (O46, O47): each commits the sign extension of a 32-bit result of the low word of x[rs1]. -/

namespace Sys2Proof.Machine

/-- Settles O46: the low word of the sum that addiw commits is that of the base plus the signed immediate, as in an effective
address (O26). -/
theorem addiwWrapsModulo2To32 : Obligations.AddiwWrapsModulo2To32 := fun s rd rs1 imm =>
  ⟨decodeWord_encode (i := .addiw rd rs1 imm) rfl,
    writesReg_of_commit_sext32 rfl (low32_toInt_of_emod (effectiveAddressIsBasePlusOffset s rs1 imm))⟩

/-- Settles O47: slliw, srliw and sraiw commit the 32-bit shift of the low word, and their words are those of `encode`. -/
theorem immediateWordShiftsByZeroTo31 : Obligations.ImmediateWordShiftsByZeroTo31 := fun _ rd rs1 shamt =>
  ⟨decodeWord_encode (i := .slliw rd rs1 shamt) rfl, writesReg_of_commit_sext32 rfl (low32_shiftLeft_toInt _ _),
    decodeWord_encode (i := .srliw rd rs1 shamt) rfl, writesReg_of_commit_sext32 rfl (low32_ushiftRight_toInt _ _),
    decodeWord_encode (i := .sraiw rd rs1 shamt) rfl, writesReg_of_commit_sext32 rfl (low32_sshiftRight_toInt _ _)⟩

end Sys2Proof.Machine
end

section
/-! PROOFS. The exception records (O14) and the causes that a step raises (O13). A trap's code is one of the five raised codes,
each of which belongs to one cause and is fatal. -/

namespace Sys2Proof.Machine

section Causes

variable {s t : State} {e : Exn}

/-- The codes of the records, in the order of R221. -/
theorem excCode_mem (e : Exn) : excCode e ∈ [0, 1, 2, 3, 4, 5, 6, 7, 8, 9, 11, 12, 13, 15] := by
  cases e <;> simp [excCode]

/-- The fatal records are those of six codes (R224). -/
theorem excIsFatal_iff (e : Exn) : excIsFatal e = true ↔ excCode e ∈ [0, 1, 2, 5, 6, 7] := by
  cases e <;> simp [excIsFatal, excCode]

/-- Every raised code is fatal (R223, R224). -/
theorem excIsFatal_of_raisedCode (h : raisedCode (excCode e)) : excIsFatal e = true := by
  rw [excIsFatal_iff]
  rcases h with h | h | h | h | h <;> simp [h]

/-- The record of each raised code (R221, R223). -/
theorem cause_of_raisedCode (h : raisedCode (excCode e)) :
    (∃ v, e = .instructionAddressMisaligned v) ∨ (∃ v, e = .instructionAccessFault v) ∨
      (∃ v, e = .illegalInstruction v) ∨ (∃ v, e = .loadAccessFault v) ∨ (∃ v, e = .storeAMOAccessFault v) := by
  cases e <;> simp [raisedCode, excCode] at h ⊢

/-- Of the four shapes of an instruction's effect only the trap halts a running block (R225). -/
theorem Effect.trap_raisedCode (he : Effect s t) (hs : s.status = .running) (ht : t.status = .halted (.trap e)) :
    raisedCode (excCode e) := by
  cases he with
  | reg | store | jump => simp [hs] at ht
  | trap e hc =>
    cases ht
    unfold raisedCode
    omega

/-- A step of a running block that ends in a trap has raised it: the fetch, the decoder or the instruction did (R223). -/
theorem StepCase.trap_raisedCode (hc : StepCase s t) (hs : s.status = .running) (ht : t.status = .halted (.trap e)) :
    raisedCode (excCode e) := by
  cases hc with
  | halted _ hs' => simp [hs] at hs'
  | fetchFault e _ hf =>
    obtain ⟨k, -, rfl, -⟩ := fetchWord_error hf
    cases ht
    exact .inr (.inl rfl)
  | zeroWord => cases ht
  | illegal =>
    cases ht
    exact .inr (.inr (.inl rfl))
  | exec w i t _ _ _ he => exact (effect_of_exec he).trap_raisedCode hs ht

end Causes

/-- Settles O13, by the cases of a step. -/
theorem onlyFiveCausesAreRaised : Obligations.OnlyFiveCausesAreRaised := by
  intro s t e hs h ht
  have hcode := (case_of_step h).trap_raisedCode hs ht
  exact ⟨excIsFatal_of_raisedCode hcode, cause_of_raisedCode hcode⟩

/-- Settles O14: the table of codes, and the halt that takes an exception. -/
theorem exceptionCodesAndFatalFlag : Obligations.ExceptionCodesAndFatalFlag := by
  refine ⟨fun _ => rfl, fun e => ?_, excIsFatal_iff, fun s e => ⟨_, rfl, halt_haltsOnly s _⟩⟩
  have hcode := excCode_mem e
  simp only [List.mem_cons, List.not_mem_nil, or_false] at hcode
  omega

end Sys2Proof.Machine
end

section
/-! PROOFS. The debug port (O54) and what the host's operations leave unchanged (O55). -/

namespace Sys2Proof.Machine

/-! ### The table of names (R22, R242, decision D28) -/

/-- Each listed name is found with its own register, as no name is listed twice. -/
theorem lookupNames_lookup : ∀ p ∈ lookupNames, lookupNames.lookup p.1 = some p.2 := by decide

theorem lookupNames_ne_pc : ∀ p ∈ lookupNames, p.1 ≠ "pc" := by decide

section Lookup

variable (s : State)

theorem lookupRegister_pc : lookupRegister s "pc" = .value s.pc := rfl

/-- A listed name gives its register's value. -/
theorem lookupRegister_of_mem {p : String × RegIdx} (hp : p ∈ lookupNames) :
    lookupRegister s p.1 = .value (s.reg p.2) := by
  rw [lookupRegister, if_neg (lookupNames_ne_pc p hp), lookupNames_lookup p hp]
  rfl

/-- A name that is neither `pc` nor listed is no register. -/
theorem lookupRegister_of_not_mem {name : String} (hpc : name ≠ "pc") (h : name ∉ lookupNames.map Prod.fst) :
    lookupRegister s name = .invalidRegister name := by
  have hnone : lookupNames.lookup name = none := by
    rw [List.lookup_eq_none_iff]
    intro p hp
    simpa using fun he : name = p.1 => h (he ▸ List.mem_map_of_mem hp)
  rw [lookupRegister, if_neg hpc, hnone]

end Lookup

/-- Settles O54: the names are those of the three lists that `lookupNames` joins. -/
theorem debugLookupFindsTheNamedRegister : Obligations.DebugLookupFindsTheNamedRegister := by
  intro s
  refine ⟨fun p hp => lookupRegister_of_mem s ?_, fun p hp => lookupRegister_of_mem s ?_,
    lookupRegister_of_mem s (p := ("fp", 8#5)) ?_, lookupRegister_pc s, fun name habi hraw hfp hpc => ?_, rfl, by decide⟩
  · simp [lookupNames, hp]
  · simp [lookupNames, hp]
  · simp [lookupNames]
  · refine lookupRegister_of_not_mem s hpc ?_
    rw [lookupNames, List.map_append, List.map_append, List.mem_append, List.mem_append]
    rintro ((h | h) | h)
    · exact habi h
    · exact hraw h
    · exact hfp (List.mem_singleton.mp h)

/-- Settles O55: only a CSR store writes, and what it writes is one entry of the bank (R259). -/
theorem hostCannotWriteRegistersPcOrMemory : Obligations.HostCannotWriteRegistersPcOrMemory := by
  intro op s hop
  cases op with
  | step => exact absurd rfl hop
  | csrStore a v =>
    obtain ⟨c, u, he, -⟩ := csrWrite_entry s a v
    rw [hostNext, he]
    exact ⟨rfl, rfl, rfl, rfl, rfl, fun h => absurd rfl (h a v)⟩
  | status | csrLoad | readX | readPc | lookup | dump => exact ⟨rfl, rfl, rfl, rfl, rfl, fun _ => rfl⟩

end Sys2Proof.Machine
end

section
/-! PROOFS. Construction (O20) and the reset state, which is the construction of the empty image with the reference parameters
(O17, O21). -/

namespace Sys2Proof.Machine

/-! ### What `construct` answers (R250) -/

section Construct

variable {p : Params} (initX : Vector Word 31) {image : List Byte}

theorem construct_of_fits (h : image.length ≤ p.memSize) : construct p initX image = some (constructed p initX image) :=
  if_pos h

theorem construct_of_too_long (h : p.memSize < image.length) : construct p initX image = none := if_neg (by omega)

/-! ### The registers and the bytes of a constructed block (R251, R253) -/

/-- x1 to x31 are those of `INIT_X` (R251). -/
theorem constructed_reg (i : Fin 31) :
    (constructed p initX image).reg (BitVec.ofNat 5 (i.val + 1)) = initX[i] := by
  have hi : (BitVec.ofNat 5 (i.val + 1)).toNat = i.val + 1 := by
    rw [BitVec.toNat_ofNat]
    omega
  have hne : BitVec.ofNat 5 (i.val + 1) ≠ 0#5 := fun h => by simp [h] at hi
  rw [reg_of_ne _ hne]
  simp [constructed, initRegs, hi]

/-- A byte of the image at its place in the window (R253). -/
theorem constructed_byteAt_image (k : Fin image.length) :
    (constructed p initX image).byteAt (p.memBase.toNat + k.val) = image[k] := by
  refine (sparseRead_loadImage (m := []) rfl _ image _).trans ?_
  rw [if_pos ⟨by omega, by omega⟩]
  simp

/-- Every byte past the image reads 0 (R253, decision D16). -/
theorem constructed_byteAt_rest {k : Nat} (h : image.length ≤ k) :
    (constructed p initX image).byteAt (p.memBase.toNat + k) = 0#8 := by
  refine (sparseRead_loadImage (m := []) rfl _ image _).trans ?_
  rw [if_neg (by omega), sparseRead_nil]

end Construct

/-! ### The CSR bank at construction (R256) -/

theorem csrEntry_of_csr_nil {s : State} (h : s.csr = []) (a : CsrIdx) : s.csrEntry a = 0#64 := by
  rw [State.csrEntry, h, sparseRead_nil]

/-- Over an empty bank the views read 0 as well, whatever their masks (R31 to R34). -/
theorem csrRead_of_csr_nil {s : State} (h : s.csr = []) (a : CsrIdx) : csrRead s a = 0#64 := by
  simp [csrRead, csrEntry_of_csr_nil h]

/-! ### The reset state -/

theorem initRegs_reference : initRegs initXReference = Vector.replicate 32 0#64 := by
  ext i
  simp [initRegs, initXReference]

/-- The reset state is the block of the empty image (R250 to R256, log 1, log 3). -/
theorem constructed_reference : constructed Params.reference initXReference [] = State.reset := by
  rw [constructed, initRegs_reference]
  rfl

theorem reset_reg (r : RegIdx) : State.reset.reg r = 0#64 := by
  simp [State.reg, State.reset]

/-- Settles O20, from what `construct` answers and the reads of the constructed block. -/
theorem constructBuildsTheBlock : Obligations.ConstructBuildsTheBlock := fun _ initX _ _ =>
  ⟨construct_of_too_long initX, fun hfit => ⟨_, construct_of_fits initX hfit, reg_zero _, constructed_reg initX, rfl,
    constructed_byteAt_image initX, fun _ hk _ => constructed_byteAt_rest initX hk,
    fun a => ⟨csrEntry_of_csr_nil rfl a, csrRead_of_csr_nil rfl a⟩, rfl, rfl⟩⟩

/-- Settles O17: the reset state is a constructed block with valid parameters. -/
theorem invariantHoldsAtReset : Obligations.InvariantHoldsAtReset := by
  rw [Obligations.InvariantHoldsAtReset, ← constructed_reference]
  exact constructed_inv (by decide) initXReference (Nat.zero_le _)

/-- Settles O21, from the construction of the empty image. -/
theorem resetIsTheReferenceConstruction : Obligations.ResetIsTheReferenceConstruction :=
  ⟨constructed_reference ▸ construct_of_fits initXReference (Nat.zero_le _), rfl, reset_reg, fun _ => rfl,
    csrEntry_of_csr_nil rfl, rfl⟩

end Sys2Proof.Machine
end
